-- ==== Sys2Proof/Word.lean ====
section
/-! DEFINITION. Word.lean: the widths of the values the block handles (00_scope.md R9, R10, R12, R15).
The arithmetic over them is in Machine/Arith.lean. -/

namespace Sys2Proof

/-- A byte of an item or of the BitStore (R15). -/
abbrev Byte := BitVec 8

/-- A 32-bit value: a digest, a seed, a working register of the hash engine (R9). -/
abbrev Word := BitVec 32

/-- A command header or a response word (R81, R86): a number, not a byte string (R94). -/
abbrev Wide := BitVec 128

end Sys2Proof
end

