-- ==== Sys2Proof/Syntax.lean ====
section
/-! DEFINITION. Syntax.lean: the five commands of 30_encoding.md R82, one constructor per row of
spec/opcode_table.json, and the transaction that carries one on the command port (R80). -/

namespace Sys2Proof

/-- A command with its operands assembled (R82, R84, R85). The operand widths are those of the header
fields, so every term is a command the host can send: no check is left to make on a term of this
type. The checks of R89 are on transactions (WellFormed.lean). -/
inductive Instr where
  /-- CONSTRUCT (R145): `k` probes over a filter of `m` bits. -/
  | construct (k : Word) (m : BitVec 64)
  /-- INSERT (R146) of an item. -/
  | insert (item : List Byte)
  /-- QUERY (R147) of an item. -/
  | query (item : List Byte)
  /-- HASH (R126) of a byte sequence under a seed. -/
  | hash (seed : Word) (bytes : List Byte)
  /-- COORD (R178) of a digest. -/
  | coord (digest : Word)
  deriving DecidableEq, Repr

/-- One transaction on the command port (R80): a 128-bit header and a payload of any finite length,
whose end the port gives. -/
structure Command where
  header : Wide
  payload : List Byte
  deriving DecidableEq, Repr

end Sys2Proof
end

