-- ==== Sys2Proof/WellFormed.lean ====
section
/-! DEFINITION. WellFormed.lean: the legality of a transaction, 30_encoding.md R89, one check per clause,
over the fields as R12 and R81 define them on numbers. The decoder (Decode.lean) is written apart from these,
over bit vectors; that the two agree is a statement. -/

namespace Sys2Proof

/-- `v[hi:lo]` of R12: `floor(v / 2^lo) mod 2^(hi-lo+1)`. -/
def fieldOf (v : Wide) (hi lo : Nat) : Nat := v.toNat / 2 ^ lo % 2 ^ (hi - lo + 1)

/-- R89 (a): OP is one of 0x01 to 0x05. -/
def Command.opIsAssigned (c : Command) : Bool :=
  decide (1 ≤ fieldOf c.header 127 120) && decide (fieldOf c.header 127 120 ≤ 5)

/-- R89 (b): RSV is zero. -/
def Command.reservedIsZero (c : Command) : Bool := fieldOf c.header 119 96 == 0

/-- R89 (c): A and B are zero for INSERT and QUERY, B is zero for HASH and COORD. -/
def Command.unusedOperandsAreZero (c : Command) : Bool :=
  match fieldOf c.header 127 120 with
  | 2 | 3 => fieldOf c.header 95 64 == 0 && fieldOf c.header 63 0 == 0
  | 4 | 5 => fieldOf c.header 63 0 == 0
  | _ => true

/-- R89 (d): the payload is empty for CONSTRUCT and COORD. -/
def Command.payloadIsAllowed (c : Command) : Bool :=
  match fieldOf c.header 127 120 with
  | 1 | 5 => c.payload.isEmpty
  | _ => true

/-- A transaction that spells a command: none of R89 (a) to (d) holds. R89: the decoder checks nothing
else. -/
def Command.wellFormed (c : Command) : Bool :=
  c.opIsAssigned && c.reservedIsZero && c.unusedOperandsAreZero && c.payloadIsAllowed

end Sys2Proof
end

