-- ==== Sys2Proof/Decode.lean ====
section
/-! DEFINITION. Decode.lean: the command decoder (30_encoding.md R81 to R85, R89 to R91) and the encoder,
both written from R82's opcode map. -/

namespace Sys2Proof

/-- Field OP, header bits 127 to 120 (R81). -/
def headerOp (h : Wide) : BitVec 8 := h.extractLsb' 120 8

/-- Field RSV, header bits 119 to 96 (R81). -/
def headerRsv (h : Wide) : BitVec 24 := h.extractLsb' 96 24

/-- Field A, header bits 95 to 64 (R81). -/
def headerA (h : Wide) : Word := h.extractLsb' 64 32

/-- Field B, header bits 63 to 0 (R81). -/
def headerB (h : Wide) : BitVec 64 := h.extractLsb' 0 64

/-- Why a transaction spells no command, one name per clause of R89. The block answers all four the same
way, with IllegalCommand (R213); the names are the model's (log 11). -/
inductive Rejection where
  /-- R89 (a): OP 0x00 or 0x06 to 0xFF. -/
  | reservedOp
  /-- R89 (b): RSV is not zero. -/
  | reservedBits
  /-- R89 (c): an operand field the command does not use is not zero. -/
  | unusedOperand
  /-- R89 (d): CONSTRUCT or COORD with a payload. -/
  | unexpectedPayload
  deriving DecidableEq, Repr

/-- What the decoder answers: it is total (R91). -/
inductive Decoded where
  | instr (i : Instr)
  | illegal (why : Rejection)
  deriving DecidableEq, Repr

/-- The row CONSTRUCT of R82: A is `k`, B is `m`, no payload. -/
def decodeConstruct (a : Word) (b : BitVec 64) (payload : List Byte) : Decoded :=
  if payload ≠ [] then .illegal .unexpectedPayload else .instr (.construct a b)

/-- The row INSERT of R82: A and B are zero, the payload is the item. -/
def decodeInsert (a : Word) (b : BitVec 64) (payload : List Byte) : Decoded :=
  if a ≠ 0 ∨ b ≠ 0 then .illegal .unusedOperand else .instr (.insert payload)

/-- The row QUERY of R82: A and B are zero, the payload is the item. -/
def decodeQuery (a : Word) (b : BitVec 64) (payload : List Byte) : Decoded :=
  if a ≠ 0 ∨ b ≠ 0 then .illegal .unusedOperand else .instr (.query payload)

/-- The row HASH of R82: A is the seed, B is zero, the payload is the bytes. -/
def decodeHash (a : Word) (b : BitVec 64) (payload : List Byte) : Decoded :=
  if b ≠ 0 then .illegal .unusedOperand else .instr (.hash a payload)

/-- The row COORD of R82: A is the digest, B is zero, no payload. -/
def decodeCoord (a : Word) (b : BitVec 64) (payload : List Byte) : Decoded :=
  if b ≠ 0 then .illegal .unusedOperand
  else if payload ≠ [] then .illegal .unexpectedPayload
  else .instr (.coord a)

/-- The decoder. It looks at the header's four fields and at whether there is a payload, and at nothing
else: operand values are the commands' business (R84, R89). -/
def decode (c : Command) : Decoded :=
  if headerRsv c.header ≠ 0 then .illegal .reservedBits
  else
    match (headerOp c.header).toNat with
    | 1 => decodeConstruct (headerA c.header) (headerB c.header) c.payload
    | 2 => decodeInsert (headerA c.header) (headerB c.header) c.payload
    | 3 => decodeQuery (headerA c.header) (headerB c.header) c.payload
    | 4 => decodeHash (headerA c.header) (headerB c.header) c.payload
    | 5 => decodeCoord (headerA c.header) (headerB c.header) c.payload
    | _ => .illegal .reservedOp

/-- A header from its fields, OP || RSV || A || B with RSV zero (R81). -/
def mkHeader (op : BitVec 8) (a : Word) (b : BitVec 64) : Wide := op ++ (0 : BitVec 24) ++ a ++ b

/-- The transaction the host sends for a command (R82). -/
def encode : Instr → Command
  | .construct k m => ⟨mkHeader 1 k m, []⟩
  | .insert item => ⟨mkHeader 2 0 0, item⟩
  | .query item => ⟨mkHeader 3 0 0, item⟩
  | .hash seed bytes => ⟨mkHeader 4 seed 0, bytes⟩
  | .coord digest => ⟨mkHeader 5 digest 0, []⟩

/-- The mask of R83 for a command's row: a header selects the row when `w and mask = match`. -/
def rowMask : Instr → Wide
  | .construct _ _ => 0xFFFFFFFF000000000000000000000000
  | .insert _ => 0xFFFFFFFFFFFFFFFFFFFFFFFFFFFFFFFF
  | .query _ => 0xFFFFFFFFFFFFFFFFFFFFFFFFFFFFFFFF
  | .hash _ _ => 0xFFFFFFFF00000000FFFFFFFFFFFFFFFF
  | .coord _ => 0xFFFFFFFF00000000FFFFFFFFFFFFFFFF

/-- The match value of R83 for a command's row. -/
def rowMatch : Instr → Wide
  | .construct _ _ => 0x01000000000000000000000000000000
  | .insert _ => 0x02000000000000000000000000000000
  | .query _ => 0x03000000000000000000000000000000
  | .hash _ _ => 0x04000000000000000000000000000000
  | .coord _ => 0x05000000000000000000000000000000

/-- The transaction a word of spec/opcode_table.json stands for: the header is the number itself (R94:
headers are numbers, not byte strings) and every bit beyond it is zero, which here is an empty payload,
since payload bytes have no place in the table (log 12). A number of more than 128 bits is no header. -/
def tableCommand (nbits w : Nat) : Option Command :=
  if nbits ≤ 128 ∧ w < 2 ^ 128 then some ⟨BitVec.ofNat 128 w, []⟩ else none

/-- What the decoder reads from a word of the opcode table. -/
def decodeTableWord (nbits w : Nat) : Option Instr :=
  match tableCommand nbits w with
  | none => none
  | some c =>
    match decode c with
    | .instr i => some i
    | .illegal _ => none

end Sys2Proof
end

