-- ==== Sys2Proof/Machine/Operands.lean ====
section
/-! DEFINITION. Machine/Operands.lean: the one addressing form of the block, digest to bit index to
(chunk, byte_in_chunk, bit_in_byte) (42_bit_addressing.md R170 to R173). Operands from the header are assembled
in Decode.lean (R84). -/

namespace Sys2Proof.Machine

/-- Step 1, the scaling transform (R171): the full 96-bit product, its low 32 bits dropped. -/
def bitIndex (digest : Word) (m : BitVec 64) : BitVec 64 :=
  ((digest.setWidth 96 * m.setWidth 96) >>> 32).setWidth 64

/-- A coordinate (R172), on naturals. -/
structure Coordinate where
  chunk : Nat
  byteInChunk : Nat
  bitInByte : Nat
  deriving DecidableEq, Repr

/-- Steps 2 to 5 (R172), as they stand. -/
def tripleOf (bi : Nat) : Coordinate :=
  let byteIndexGlobal := bi / 8
  let chunk := byteIndexGlobal / 32768
  let byteInChunk := byteIndexGlobal - chunk * 32768
  { chunk := chunk
    byteInChunk := byteInChunk
    bitInByte := bi - chunk * 32768 * 8 - byteInChunk * 8 }

/-- `coordinate(digest)` for the current M (R170 to R172). -/
def coordinate (digest : Word) (m : BitVec 64) : Coordinate := tripleOf (bitIndex digest m).toNat

/-- The global byte index of a coordinate (R51). -/
def Coordinate.globalByte (c : Coordinate) : Nat := c.chunk * 32768 + c.byteInChunk

end Sys2Proof.Machine
end

