-- ==== Sys2Proof/Config.lean ====
section
/-! DEFINITION. Config.lean: what the block fixes (00_scope.md R9), and the one family of values the
spec leaves unspecified, as an uninterpreted constant. -/

namespace Sys2Proof.Config

/-- `CHUNK_BYTES` of R9: a chunk is 32 KiB. -/
abbrev chunkBytes : Nat := 32768

/-- `CHUNK_BITS` of R9. -/
abbrev chunkBits : Nat := 262144

/-- The largest chunk count any legal `M` needs (R145, R191: `m = 2^64 - 1` gives `2^46`). R11 names it as
the capacity of a block that never answers AllocationFailure. DESIGN CHOICE (log 3): `State.reset` takes
it for the open parameter `MAX_CHUNKS`; every statement ranges over all capacities. -/
def resetMaxChunks : Nat := 2 ^ 46

/-- FREE VALUE (R38, R52, U8, U13; log 5): the byte the BitStore holds at global byte index `g` after
the reset numbered `epoch`, where nothing has been written and BS_ALLOC has not zero-filled. It has
no body, so no proof can rest on what it is. Safe. -/
opaque unspecifiedByte : (epoch : Nat) → (g : Nat) → BitVec 8

end Sys2Proof.Config
end

