-- ==== Sys2Proof/Machine/State.lean ====
section
/-! DEFINITION. Machine/State.lean: the architectural state (10_state.md), the ports' data (30_encoding.md
R80, R86), the state after reset (R38), and the reasons a step can stop. -/

namespace Sys2Proof.Machine

/-- The working registers of the hash engine (R27 to R30). -/
structure HashEngine where
  /-- `LEN`, the bytes absorbed since HINIT modulo `2^32` (R30). -/
  len : Word
  /-- `CNT`, the number of bytes in `ACC` (R29). -/
  cnt : BitVec 2
  /-- `ACC`, the partial word being packed (R28). -/
  acc : Word
  /-- `H`, the working register (R27). -/
  h : Word
  deriving DecidableEq, Repr

/-- The BitStore (R26): `maxChunks` chunks of 32768 bytes, byte `y` of chunk `c` at the global byte index
`c * 32768 + y` (R51). What a byte reads as is `BitStore.byteAt` (Machine/Ops.lean): its listed value, or
`BitStore.unlisted`. -/
structure BitStore where
  /-- `MAX_CHUNKS` (R11), the open parameter: no step writes it (log 3). -/
  maxChunks : Nat
  /-- The MODEL's own field (log 5): how many resets the block has taken, the index of the free values. -/
  epoch : Nat
  /-- The MODEL's own field (log 5): chunks `0 .. filled-1` were zero-filled by BS_ALLOC since reset. -/
  filled : Nat
  /-- The listed bytes, by strictly rising global byte index. -/
  cells : List Host.Cell
  deriving DecidableEq, Repr

/-- What the host does to the block (R251), in the order it does it. -/
inductive HostEvent where
  /-- It sends a command transaction (R80). -/
  | command (c : Command)
  /-- It applies reset; `inFlight` is the command the reset catches in flight, if any, which is abandoned
  without a response (R240). -/
  | reset (inFlight : Option Command)
  deriving DecidableEq, Repr

/-- The state of the block, with the data of its two ports. -/
structure State where
  /-- `M`, the bit-array size (R21). -/
  m : BitVec 64
  /-- `K`, the number of probes (R22). -/
  k : Word
  /-- `NCHUNKS`, the chunk count (R23). -/
  nchunks : BitVec 64
  /-- `CONSTRUCTED`, the one bit of STATUS (R24). -/
  constructed : Bool
  /-- `SEED`, the probe counter (R31). -/
  seed : Word
  /-- `HIT`, the result of QUERY (R32). -/
  hit : Bool
  /-- The command port: what the host does next, first event first (R80, R251; log 1). -/
  port : List HostEvent
  /-- The responses emitted, oldest first (R86, R250; log 1). -/
  responses : List Wide
  /-- The BitStore (R26). -/
  bitStore : BitStore
  /-- `H`, `ACC`, `CNT`, `LEN` (R27 to R30). The BitStore and the engine stand last, so that comparing
  two states by unfolding meets a cheap difference before a byte access or a hash pass. -/
  he : HashEngine
  deriving DecidableEq, Repr

/-- The status codes of R210, by name. -/
inductive Status where
  /-- The command completed. -/
  | ok
  /-- `m = 0` or `k = 0` (R211). -/
  | invalidParameters
  /-- The chunk count exceeds `MAX_CHUNKS` (R212). -/
  | allocationFailure
  /-- The header or payload does not spell a command (R213). -/
  | illegalCommand
  /-- INSERT, QUERY or COORD before CONSTRUCT (R214). -/
  | notConstructed
  /-- CONSTRUCT on a constructed block (R215). -/
  | alreadyConstructed
  deriving DecidableEq, Repr

/-- Why a step stops the machine. An error of R210 is no fault: it is a response, and a next state. -/
inductive Fault where
  /-- Raised by INSERT and QUERY when a coordinate names a byte of a chunk at or above `MAX_CHUNKS`, which
  does not exist (R26, R53). Safe: no command of a state that meets `State.Inv` reaches it (R174, R195),
  which is a statement of the model (log 6). -/
  | noSuchChunk
  deriving DecidableEq, Repr

/-- Why a step has no meaning. -/
inductive Refusal where
  /-- Raised by `exec` alone, for an instruction that has no meaning yet. Safe. No arm raises it now. -/
  | notModelled (mnemonic : String)
  deriving DecidableEq, Repr

/-- The block right after reset (R38), with `MAX_CHUNKS` an argument as R11 asks: M, K, NCHUNKS and
CONSTRUCTED are 0, no byte of the BitStore is listed (every byte is a free value, log 5), the working
registers hold the values log 4 names, and the block waits for a command. -/
def State.resetWith (maxChunks : Nat) : State where
  m := 0
  k := 0
  nchunks := 0
  constructed := false
  seed := 0
  hit := false
  port := []
  responses := []
  bitStore := { maxChunks := maxChunks, epoch := 0, filled := 0, cells := [] }
  he := { len := 0, cnt := 0, acc := 0, h := 0 }

/-- The block right after reset, with the capacity log 3 names. -/
def State.reset : State := State.resetWith Config.resetMaxChunks

end Sys2Proof.Machine
end

