-- ==== Sys2Proof/Machine/Flags.lean ====
section
/-! DEFINITION. Machine/Flags.lean: the status codes (60_exceptions.md R210). The block has no condition
codes and no command sets a flag as a side effect (10_state.md R33): its one-bit states are CONSTRUCTED and
HIT, written by CONSTRUCT and QUERY alone. -/

namespace Sys2Proof.Machine

/-- The numeric code of a status (R210). -/
def Status.code : Status → BitVec 8
  | .ok => 0x00
  | .invalidParameters => 0x01
  | .allocationFailure => 0x02
  | .illegalCommand => 0x03
  | .notConstructed => 0x04
  | .alreadyConstructed => 0x05

/-- One bit as the 32-bit result field R32 carries it: 1 for true, 0 for false (R87, QUERY). -/
def bitResult (b : Bool) : Word := if b then 1 else 0

end Sys2Proof.Machine
end

