-- ==== Sys2Proof/Machine/Ops.lean ====
section
/-! DEFINITION. Machine/Ops.lean: the named operations over the ports, the configuration registers and the
BitStore's bytes: answering a command (30_encoding.md R86), raising an error (60_exceptions.md R217), taking
reset (70_reset_and_hazards.md R240), and the memory primitives (20_memory.md R53). -/

namespace Sys2Proof.Machine

/-! ## Responses and errors -/

/-- The response word STATUS || RSV || R32 || R64 with RSV zero (R86). -/
def responseWord (st : Status) (r32 : Word) (r64 : BitVec 64) : Wide :=
  st.code ++ (0 : BitVec 24) ++ r32 ++ r64

/-- Field STATUS of a response, bits 127 to 120 (R86). -/
def responseStatus (w : Wide) : BitVec 8 := w.extractLsb' 120 8

/-- Field RSV of a response, bits 119 to 96 (R86). -/
def responseRsv (w : Wide) : BitVec 24 := w.extractLsb' 96 24

/-- Field R32 of a response, bits 95 to 64 (R86). -/
def responseR32 (w : Wide) : Word := w.extractLsb' 64 32

/-- Field R64 of a response, bits 63 to 0 (R86). -/
def responseR64 (w : Wide) : BitVec 64 := w.extractLsb' 0 64

/-- `respond(status, r32, r64)` of R13 and R86: the response is emitted, nothing else changes. -/
def State.respond (st : Status) (r32 : Word) (r64 : BitVec 64) (s : State) : State :=
  { s with responses := s.responses ++ [responseWord st r32 r64] }

/-- `raise E` of R13 and R217, the ONE way an error is taken: the response is `respond(E, 0, 0)`, no
architectural state changes, nothing is saved, control goes nowhere. -/
def State.raise (e : Status) (s : State) : State := s.respond e 0 0

/-! ## The command port -/

/-- The rest of the port once its first event is taken (R80: in arrival order, one at a time). -/
def State.withPort (rest : List HostEvent) (s : State) : State := { s with port := rest }

/-- The host places a transaction so that it is the next one the block takes (log 12). -/
def State.offer (c : Command) (s : State) : State := { s with port := .command c :: s.port }

/-! ## Bytes of the BitStore -/

/-- How many bytes the BitStore has (R26). -/
def BitStore.size (b : BitStore) : Nat := b.maxChunks * Config.chunkBytes

/-- What a byte that is not listed reads as, the ONE definition of it: zero in the chunks BS_ALLOC has
zero-filled (R53, R192), unspecified elsewhere (R38, R52; log 5). -/
def BitStore.unlisted (b : BitStore) (g : Nat) : Byte :=
  if g < b.filled * Config.chunkBytes then 0 else Config.unspecifiedByte b.epoch g

/-- The value listed for an address, if one is. -/
def listedByte : List Host.Cell → Nat → Option Byte
  | [], _ => none
  | (a, v) :: rest, g => if a = g then some v else listedByte rest g

/-- The byte at global byte index `g` (R51). -/
def BitStore.byteAt (b : BitStore) (g : Nat) : Byte :=
  match listedByte b.cells g with
  | some v => v
  | none => b.unlisted g

/-- Set the byte of one address in a list whose addresses strictly rise, where the unlisted address reads as
`u`: a byte equal to `u` is not listed, any other is. -/
def setCell : List Host.Cell → (g : Nat) → (v u : Byte) → List Host.Cell
  | [], g, v, u => if v = u then [] else [(g, v)]
  | (a, w) :: rest, g, v, u =>
    if a < g then (a, w) :: setCell rest g v u
    else if a = g then (if v = u then rest else (g, v) :: rest)
    else if v = u then (a, w) :: rest
    else (g, v) :: (a, w) :: rest

/-- Set one byte and keep the canonical form. -/
def BitStore.setByte (b : BitStore) (g : Nat) (v : Byte) : BitStore :=
  { b with cells := setCell b.cells g v (b.unlisted g) }

/-- `MemRead(g, 1)` of R53: the byte, and no side effect. `none` where the BitStore has no byte `g`. -/
def BitStore.memRead (b : BitStore) (g : Nat) : Option Byte :=
  if g < b.size then some (b.byteAt g) else none

/-- `MemWrite(g, 1, v)` of R53: that byte becomes `v`, nothing else changes. `none` where the BitStore has no
byte `g`. -/
def BitStore.memWrite (b : BitStore) (g : Nat) (v : Byte) : Option BitStore :=
  if g < b.size then some (b.setByte g v) else none

/-- Listed addresses strictly rise from `lo` on. -/
def cellsRiseFrom : Nat → List Host.Cell → Bool
  | _, [] => true
  | lo, (a, _) :: rest => decide (lo ≤ a) && cellsRiseFrom (a + 1) rest

/-- The canonical form: the addresses strictly rise, each byte exists, and none equals what the unlisted
address reads as. -/
def BitStore.wf (b : BitStore) : Bool :=
  cellsRiseFrom 0 b.cells && b.cells.all fun c => decide (c.1 < b.size) && decide (c.2 ≠ b.unlisted c.1)

/-! ## Reset -/

/-- The BitStore after a reset: its contents are unspecified anew (R38, R240). -/
def BitStore.afterReset (b : BitStore) : BitStore :=
  { b with epoch := b.epoch + 1, filled := 0, cells := [] }

/-- Reset as an input (R240, R241): every register at its value of R38 (the working registers at the values
log 4 names), the BitStore unspecified. What the host still sends and what it has received stand (log 7). -/
def State.takeReset (s : State) : State :=
  { State.resetWith s.bitStore.maxChunks with
    bitStore := s.bitStore.afterReset, port := s.port, responses := s.responses }

end Sys2Proof.Machine
end

