-- ==== Sys2Proof/Machine/BitAddressing.lean ====
section
/-! DEFINITION. Machine/BitAddressing.lean: the command COORD (42_bit_addressing.md R178), which exposes the
mapping of Machine/Operands.lean. -/

namespace Sys2Proof.Machine

/-- COORD (R178): it answers the bit index of a digest and changes nothing. -/
def execCoord (digest : Word) (s : State) : Host.Outcome State Fault Refusal :=
  if s.constructed then .next (s.respond .ok 0 (bitIndex digest s.m))
  else .next (s.raise .notConstructed)

end Sys2Proof.Machine
end

