-- ==== Sys2Proof/Machine/BitStoreController.lean ====
section
/-! DEFINITION. Machine/BitStoreController.lean: the BitStore controller BS (43_bitstore_controller.md): the
chunk count and the micro-operations BS_ALLOC, BS_SET and BS_TEST. -/

namespace Sys2Proof.Machine

/-- The chunk count `ceil(ceil(m / 8) / 32768)` (R191). -/
def chunkCount (m : BitVec 64) : Nat := ((m.toNat + 7) / 8 + 32767) / 32768

/-- BS_ALLOC (R192): every byte of chunks `0 .. nc-1` becomes zero, all others stand. The loop of R192 in one
operation (log 10). -/
def bsAlloc (nc : Nat) (b : BitStore) : BitStore :=
  { b with
    filled := max b.filled nc
    cells := b.cells.filter fun c => decide (nc * Config.chunkBytes ≤ c.1) }

/-- The mask `1 << j` (R55, R193). -/
def bitMask (j : Nat) : Byte := 1 <<< j

/-- BS_SET (R193): read, or in the mask, write back unconditionally. There is no check against NCHUNKS or M
(R195); `none` where the byte does not exist. -/
def bsSet (b : BitStore) (c : Coordinate) : Option BitStore :=
  match b.memRead c.globalByte with
  | none => none
  | some v => b.memWrite c.globalByte (v ||| bitMask c.bitInByte)

/-- BS_TEST (R194): `(MemRead(g, 1) >> j) and 1`, as a Bool. -/
def bsTest (b : BitStore) (c : Coordinate) : Option Bool :=
  match b.memRead c.globalByte with
  | none => none
  | some v => some ((v >>> c.bitInByte) &&& 1 == 1)

end Sys2Proof.Machine
end

