-- ==== Sys2Proof/Machine/Arith.lean ====
section
/-! DEFINITION. Machine/Arith.lean: the 32-bit primitives of 00_scope.md R14. All wrap modulo `2^32`; the
shift is logical. -/

namespace Sys2Proof.Machine

/-- `add32` of R14. -/
def add32 (a b : Word) : Word := a + b

/-- `mul32` of R14: the low 32 bits of the product. -/
def mul32 (a b : Word) : Word := a * b

/-- `xor32` of R14. -/
def xor32 (a b : Word) : Word := a ^^^ b

/-- `shr32` of R14: zeros enter at the top. -/
def shr32 (a : Word) (r : Nat) : Word := a >>> r

/-- `rotl32` of R14, for `1 <= r <= 31`: the two parts do not overlap, so or-ing them is R14's sum. -/
def rotl32 (a : Word) (r : Nat) : Word := (a <<< r) ||| (a >>> (32 - r))

end Sys2Proof.Machine
end

