-- ==== Sys2Proof/Machine/HashEngine.lean ====
section
/-! DEFINITION. Machine/HashEngine.lean: the hash engine HE (40_hash_engine.md): the function Hash, its
streaming micro-operations, and the command HASH. -/

namespace Sys2Proof.Machine

/-! ## The function Hash -/

/-- One byte shifted into a word being packed: `((w * 256) mod 2^32) + b` (R112, R123). -/
def packByte (w : Word) (b : Byte) : Word := add32 (mul32 w 256) (b.setWidth 32)

/-- `pack` of R112: big-endian, right-aligned, starting from 0. -/
def pack (g : List Byte) : Word := g.foldl packByte 0

/-- `scramble` of R113. -/
def scramble (w : Word) : Word := mul32 (rotl32 (mul32 w 0xcc9e2d51) 15) 0x1b873593

/-- `mix` of R114. -/
def mix (h w : Word) : Word := add32 (mul32 (rotl32 (xor32 h (scramble w)) 13) 5) 0xe6546b64

/-- `fmix` of R118, its five assignments in order. -/
def fmix (h0 : Word) : Word :=
  let h1 := xor32 h0 (shr32 h0 16)
  let h2 := mul32 h1 0x85ebca6b
  let h3 := xor32 h2 (shr32 h2 13)
  let h4 := mul32 h3 0xc2b2ae35
  xor32 h4 (shr32 h4 16)

/-- The complete 4-byte blocks, in order: `bytes[4j .. 4j+4)` for `j = 0 to floor(L/4)-1` (R115). -/
def blocksOf : List Byte → List (List Byte)
  | b0 :: b1 :: b2 :: b3 :: rest => [b0, b1, b2, b3] :: blocksOf rest
  | _ => []

/-- The block phase (R115): the value of `h` after every complete block. -/
def blockPhase (h : Word) (bytes : List Byte) : Word :=
  (blocksOf bytes).foldl (fun h g => mix h (pack g)) h

/-- The last `L mod 4` bytes (R116). -/
def tailBytes : List Byte → List Byte
  | _ :: _ :: _ :: _ :: rest => tailBytes rest
  | tail => tail

/-- `Hash(bytes, seed)` of R119, in its step order. -/
def hashOf (bytes : List Byte) (seed : Word) : Word :=
  let h := blockPhase seed bytes
  let h := xor32 h (scramble (pack (tailBytes bytes)))
  let h := xor32 h (BitVec.ofNat 32 bytes.length)
  fmix h

/-! ## The streaming form -/

/-- HINIT (R122): it writes all four registers. -/
def hinit (seed : Word) : HashEngine := { h := seed, acc := 0, cnt := 0, len := 0 }

/-- HBYTE (R123). -/
def hbyte (e : HashEngine) (b : Byte) : HashEngine :=
  let acc := packByte e.acc b
  let len := e.len + 1
  if e.cnt = 3 then { h := mix e.h acc, acc := 0, cnt := 0, len := len }
  else { h := e.h, acc := acc, cnt := e.cnt + 1, len := len }

/-- HFIN (R124): the digest is the value it leaves in `H`. -/
def hfin (e : HashEngine) : HashEngine :=
  { e with h := fmix (xor32 (xor32 e.h (scramble e.acc)) e.len) }

/-- The engine after HINIT and an HBYTE per byte, before HFIN. -/
def absorb (seed : Word) (bytes : List Byte) : HashEngine := bytes.foldl hbyte (hinit seed)

/-- The pass of R126 and R148: HINIT, HBYTE per byte, HFIN. -/
def hashPass (seed : Word) (bytes : List Byte) : HashEngine := hfin (absorb seed bytes)

/-- The engine's registers replaced by those a pass leaves. -/
def State.withEngine (e : HashEngine) (s : State) : State := { s with he := e }

/-! ## The command HASH -/

/-- HASH (R126): it reads no other state, writes the hash engine's registers only, and answers the digest. -/
def execHash (seed : Word) (bytes : List Byte) (s : State) : Host.Outcome State Fault Refusal :=
  let e := hashPass seed bytes
  .next ((s.respond .ok e.h 0).withEngine e)

end Sys2Proof.Machine
end

