-- ==== Sys2Proof/Machine/FilterStore.lean ====
section
/-! DEFINITION. Machine/FilterStore.lean: the sequencer FS (41_filter_store.md): CONSTRUCT, and the probe loops
of INSERT and QUERY. -/

namespace Sys2Proof.Machine

/-! ## CONSTRUCT -/

/-- The writes of a successful CONSTRUCT (R145): BS_ALLOC, then M, K, NCHUNKS and CONSTRUCTED. -/
def State.construct (k : Word) (m : BitVec 64) (s : State) : State :=
  { s with
    m := m
    k := k
    nchunks := BitVec.ofNat 64 (chunkCount m)
    constructed := true
    bitStore := bsAlloc (chunkCount m) s.bitStore }

/-- CONSTRUCT (R145), its checks in the order of R216. -/
def execConstruct (k : Word) (m : BitVec 64) (s : State) : Host.Outcome State Fault Refusal :=
  if s.constructed then .next (s.raise .alreadyConstructed)
  else if m = 0 ∨ k = 0 then .next (s.raise .invalidParameters)
  else if s.bitStore.maxChunks < chunkCount m then .next (s.raise .allocationFailure)
  else .next ((s.construct k m).respond .ok 0 (BitVec.ofNat 64 (chunkCount m)))

/-! ## Probes -/

/-- A probe's hash pass (R146 to R148): SEED holds the probe's seed and the engine what the pass leaves. -/
def State.probe (item : List Byte) (seed : Word) (s : State) : State :=
  { s with seed := seed, he := hashPass seed item }

/-- The coordinate a probe selects, with the current M (R148). -/
def probeCoordinate (item : List Byte) (seed : Word) (s : State) : Coordinate :=
  coordinate (hashPass seed item).h s.m

/-- The BitStore replaced by what an access leaves. -/
def State.withBitStore (b : BitStore) (s : State) : State := { s with bitStore := b }

/-- HIT written (R32). -/
def State.withHit (v : Bool) (s : State) : State := { s with hit := v }

/-- INSERT's loop (R146): `n` more probes, the next with seed `seed`. -/
def insertLoop (item : List Byte) : Nat → Word → State → Option State
  | 0, _, s => some s
  | n + 1, seed, s =>
    (bsSet s.bitStore (probeCoordinate item seed s)).bind fun b =>
      insertLoop item n (seed + 1) ((s.probe item seed).withBitStore b)

/-- QUERY's loop (R147): `n` more probes, the next with seed `seed`; HIT falls and the loop exits at the
first bit found unset. -/
def queryLoop (item : List Byte) : Nat → Word → State → Option State
  | 0, _, s => some s
  | n + 1, seed, s =>
    (bsTest s.bitStore (probeCoordinate item seed s)).bind fun bit =>
      if bit then queryLoop item n (seed + 1) (s.probe item seed)
      else some ((s.probe item seed).withHit false)

/-! ## INSERT and QUERY -/

/-- INSERT (R146): K probes, seeds 0 to K-1, each setting its bit. -/
def execInsert (item : List Byte) (s : State) : Host.Outcome State Fault Refusal :=
  if s.constructed then
    match insertLoop item s.k.toNat 0 s with
    | some t => .next (t.respond .ok 0 0)
    | none => .fault .noSuchChunk
  else .next (s.raise .notConstructed)

/-- QUERY (R147): HIT is 1 if and only if every one of the K probed bits is 1. -/
def execQuery (item : List Byte) (s : State) : Host.Outcome State Fault Refusal :=
  if s.constructed then
    match queryLoop item s.k.toNat 0 (s.withHit true) with
    | some t => .next (t.respond .ok (bitResult t.hit) 0)
    | none => .fault .noSuchChunk
  else .next (s.raise .notConstructed)

end Sys2Proof.Machine
end

