-- ==== Sys2Proof/Machine/Dispatch.lean ====
section
/-! DEFINITION. Machine/Dispatch.lean: one arm per command, each a direct call of its meaning. -/

namespace Sys2Proof.Machine

def exec (i : Instr) (s : State) : Host.Outcome State Fault Refusal :=
  match i with
  | .construct k m => Sys2Proof.Machine.execConstruct k m s
  | .insert item => Sys2Proof.Machine.execInsert item s
  | .query item => Sys2Proof.Machine.execQuery item s
  | .hash seed bytes => Sys2Proof.Machine.execHash seed bytes s
  | .coord digest => Sys2Proof.Machine.execCoord digest s

end Sys2Proof.Machine
end

