-- ==== Sys2Proof/Machine/Step.lean ====
section
/-! DEFINITION. Machine/Step.lean: one step of the block: it takes the host's next event (30_encoding.md R80,
70_reset_and_hazards.md R244, R251) and does all of it. -/

namespace Sys2Proof.Machine

/-- One step. With nothing on the port the block is idle and holds all its state (R20, R226). A reset is taken
(R240). A transaction is decoded: a legal one runs whole and answers, an illegal one is answered
IllegalCommand (R89, R213). -/
def step (s : State) : Host.Outcome State Fault Refusal :=
  match s.port with
  | [] => .next s
  | .reset _ :: rest => .next (s.withPort rest).takeReset
  | .command c :: rest =>
    match decode c with
    | .instr i => exec i (s.withPort rest)
    | .illegal _ => .next ((s.withPort rest).raise .illegalCommand)

/-- `s` with the instruction of a word of spec/opcode_table.json offered on the command port, ahead of whatever
the host would send, so that the next step takes it (log 12). A number that is no header is not offered. -/
def State.withFetchWord (s : State) (nbits w : Nat) : State :=
  match tableCommand nbits w with
  | some c => s.offer c
  | none => s

end Sys2Proof.Machine
end

