-- ==== Sys2Proof/Machine/HostSide.lean ====
section
/-! DEFINITION. Machine/HostSide.lean: what the spec gives the host's tools and never the block (00_scope.md R7): the
sizing law (41_filter_store.md R140 to R143), the pseudo-instructions (30_encoding.md R93) and the listing syntax
(R92). No step of the block uses anything of this file. -/

namespace Sys2Proof.Machine

/-! ## The sizing law, over the exact reals (R143; log 13) -/

/-- `m = ceil(-n * ln(p) / (ln 2)^2)` (R140). -/
def IsBitArraySize (n : ℤ) (p : ℝ) (m : ℤ) : Prop := m = ⌈-(n : ℝ) * Real.log p / Real.log 2 ^ 2⌉

/-- `k = floor((m / n) * ln 2 + 1/2)`, the rounding of R141, which meets no tie. -/
def IsProbeCount (n m k : ℤ) : Prop := k = ⌊(m : ℝ) / (n : ℝ) * Real.log 2 + 1 / 2⌋

/-- The outcome of the host's `Size(n, p)` (R142): `(m, k)`, or `none` where it raises InvalidParameters. -/
def IsSize (n : ℤ) (p : ℝ) : Option (ℤ × ℤ) → Prop
  | some (m, k) => 0 < n ∧ 0 < p ∧ p < 1 ∧ IsBitArraySize n p m ∧ IsProbeCount n m k ∧ 0 < m ∧ 0 < k
  | none => n ≤ 0 ∨ p ≤ 0 ∨ 1 ≤ p ∨
      ∃ m k, IsBitArraySize n p m ∧ IsProbeCount n m k ∧ (m ≤ 0 ∨ k ≤ 0)

/-! ## Pseudo-instructions (R93) -/

/-- The UTF-8 encoding of a text, which the host makes before it sends an item (R158; log 14 for the encoder). DESIGN
CHOICE (log 17; 91_not_in_source.md N20 leaves it open): a text is a list of Unicode scalar values, so it has no
unpaired surrogate, and it is encoded as it stands, with no normalisation and no byte-order mark added or dropped. -/
def utf8Bytes (text : List Char) : List Byte :=
  text.flatMap fun c => (String.utf8EncodeChar c).map UInt8.toBitVec

/-- The pseudo-instructions of R93. -/
inductive Pseudo where
  /-- NEW n, p: the argument is what the host's `Size(n, p)` gave (`IsSize`). -/
  | new (size : Option (ℤ × ℤ))
  /-- CONTAINS item. -/
  | contains (item : List Byte)
  /-- ADD item. -/
  | add (item : List Byte)
  /-- CHECK item. -/
  | check (item : List Byte)
  /-- INSERTT text (what a text is: log 17). -/
  | insertT (text : List Char)
  /-- QUERYT text (what a text is: log 17). -/
  | queryT (text : List Char)
  deriving DecidableEq, Repr

/-- What a pseudo-instruction expands to. -/
inductive Expansion where
  /-- One command is sent. -/
  | send (i : Instr)
  /-- The host reports an error and no command is sent (R93, R211). -/
  | report (e : Status)
  /-- `m` or `k` is too wide for the header: there is no command to send (D4; log 13). -/
  | notEncodable
  deriving DecidableEq, Repr

/-- The expansion of R93. -/
def Pseudo.expand : Pseudo → Expansion
  | .new none => .report .invalidParameters
  | .new (some (m, k)) =>
    if 0 ≤ m ∧ m < 2 ^ 64 ∧ 0 ≤ k ∧ k < 2 ^ 32 then
      .send (.construct (BitVec.ofNat 32 k.toNat) (BitVec.ofNat 64 m.toNat))
    else .notEncodable
  | .contains item => .send (.query item)
  | .add item => .send (.insert item)
  | .check item => .send (.query item)
  | .insertT text => .send (.insert (utf8Bytes text))
  | .queryT text => .send (.query (utf8Bytes text))

/-! ## The listing syntax (R92; log 16) -/

/-- A hexadecimal digit. -/
def hexDigit (d : Nat) : Char := if d < 10 then Char.ofNat (48 + d) else Char.ofNat (87 + d)

/-- The low `width` hexadecimal digits of a number, most significant first. -/
def hexDigits : (width : Nat) → Nat → List Char
  | 0, _ => []
  | w + 1, n => hexDigits w (n / 16) ++ [hexDigit (n % 16)]

/-- `x"<hex digits>"`, two digits per byte. -/
def itemListing (item : List Byte) : String :=
  "x\"" ++ String.ofList (item.flatMap fun b => hexDigits 2 b.toNat) ++ "\""

/-- The item that the quoted form `"<ASCII text>"` stands for: the bytes of its characters, in order. `none` where a
character is not ASCII, for which R92 gives the form no meaning. -/
def asciiItem (text : List Char) : Option (List Byte) :=
  if text.all fun c => decide (c.toNat < 128) then some (text.map fun c => BitVec.ofNat 8 c.toNat) else none

/-- `0x` and eight hexadecimal digits. -/
def hex32 (w : Word) : String := "0x" ++ String.ofList (hexDigits 8 w.toNat)

/-- A command as R92 writes it. -/
def commandListing : Instr → String
  | .construct k m => "CONSTRUCT m=" ++ toString m.toNat ++ ", k=" ++ toString k.toNat
  | .insert item => "INSERT " ++ itemListing item
  | .query item => "QUERY " ++ itemListing item
  | .hash seed bytes => "HASH " ++ itemListing bytes ++ ", seed=" ++ toString seed.toNat
  | .coord digest => "COORD " ++ hex32 digest

/-- The name of an error status (R210), by its code. -/
def errorName : Nat → String
  | 1 => "InvalidParameters"
  | 2 => "AllocationFailure"
  | 3 => "IllegalCommand"
  | 4 => "NotConstructed"
  | 5 => "AlreadyConstructed"
  | _ => "(never produced)"

/-- The fields of an OK response, as R92 writes them for the command that was sent (R87). -/
def okListing (i : Instr) (w : Wide) : String :=
  match i with
  | .construct _ _ => "-> OK nchunks=" ++ toString (responseR64 w).toNat
  | .insert _ => "-> OK"
  | .query _ => "-> OK " ++ toString (responseR32 w).toNat
  | .hash _ _ => "-> OK " ++ hex32 (responseR32 w)
  | .coord _ =>
    let t := tripleOf (responseR64 w).toNat
    "-> OK bit_index=" ++ toString (responseR64 w).toNat ++ " (" ++ toString t.chunk ++ ","
      ++ toString t.byteInChunk ++ "," ++ toString t.bitInByte ++ ")"

/-- A response as R92 writes it, for the command that was sent (R87: the command tells equal words apart). -/
def responseListing (i : Instr) (w : Wide) : String :=
  if responseStatus w = 0 then okListing i w else "-> " ++ errorName (responseStatus w).toNat

end Sys2Proof.Machine
end

