-- ==== Sys2Proof/Safety.lean ====
section
/-! DEFINITION. Safety.lean: the terms claims are made in: the filter's bits, the invariant of the block, and
what two states must share to answer alike. -/

namespace Sys2Proof.Machine

/-- Bit `i` of the BitStore: bit `i mod 8` of byte `floor(i / 8)`, least significant first (R26, R55). -/
def BitStore.bitAt (b : BitStore) (i : Nat) : Bool := (b.byteAt (i / 8)).getLsbD (i % 8)

/-- The bit index probe `seed` of an item selects under a bit-array size (R148). -/
def probeIndex (item : List Byte) (seed : Word) (m : BitVec 64) : Nat := (bitIndex (hashOf item seed) m).toNat

/-- `i` is selected by one of the first `k` probes of an item (R148). -/
def Probed (item : List Byte) (k : Word) (m : BitVec 64) (i : Nat) : Prop :=
  ∃ n, n < k.toNat ∧ probeIndex item (BitVec.ofNat 32 n) m = i

/-- The invariant of the block. -/
structure State.Inv (s : State) : Prop where
  /-- `MAX_CHUNKS >= 1` (R11). -/
  capacity : 1 ≤ s.bitStore.maxChunks
  /-- The listed bytes are in canonical form. -/
  canonical : s.bitStore.wf = true
  /-- The zero-filled chunks are chunks `0 .. NCHUNKS-1` (R192). -/
  zeroFilled : s.bitStore.filled = s.nchunks.toNat
  /-- Only bytes of chunks below NCHUNKS are ever written (R26, R52). -/
  confined : ∀ c ∈ s.bitStore.cells, c.1 < s.nchunks.toNat * 32768
  /-- `CNT = LEN mod 4` (R29). -/
  counting : s.he.cnt.toNat = s.he.len.toNat % 4
  /-- While CONSTRUCTED = 0: M = K = NCHUNKS = 0 (R21, R22, R23). -/
  unbuilt : s.constructed = false → s.m = 0 ∧ s.k = 0 ∧ s.nchunks = 0
  /-- While CONSTRUCTED = 1: M and K are at least 1, NCHUNKS is the chunk count of M, and it fits
  (R21, R22, R23). -/
  built : s.constructed = true →
    s.m ≠ 0 ∧ s.k ≠ 0 ∧ s.nchunks.toNat = chunkCount s.m ∧ chunkCount s.m ≤ s.bitStore.maxChunks
  /-- Padding is zero (R52, R197). -/
  padding : s.constructed = true →
    ∀ i, s.m.toNat ≤ i → i < s.nchunks.toNat * 262144 → s.bitStore.bitAt i = false

/-- The block holds a filter whose every coordinate exists: what INSERT and QUERY need to run (R152). It is
what `State.Inv` says of a constructed block, and no more. -/
def State.Usable (s : State) : Prop :=
  s.constructed = true ∧ s.m ≠ 0 ∧ chunkCount s.m ≤ s.bitStore.maxChunks

/-- The state with the working registers forgotten (R34): H, ACC, CNT, LEN, SEED and HIT. -/
def State.forgetWorking (s : State) : State :=
  { s with he := { len := 0, cnt := 0, acc := 0, h := 0 }, seed := 0, hit := false }

/-- The state with other unspecified bytes: the same listed bytes, the free values of another epoch. -/
def State.withEpoch (e : Nat) (s : State) : State := { s with bitStore := { s.bitStore with epoch := e } }

/-- An outcome seen through a function of its next state. -/
def seenThrough (f : State → State) : Host.Outcome State Fault Refusal → Host.Outcome State Fault Refusal
  | .next s => .next (f s)
  | .fault r => .fault r
  | .refused r => .refused r

/-- The event is a command, not a reset. -/
def HostEvent.isCommand : HostEvent → Bool
  | .command _ => true
  | .reset _ => false

/-- The loop of BS_ALLOC as R192 writes it: `for g = 0 to n-1: MemWrite(g, 1, 0)`. -/
def writeZeros : (n : Nat) → BitStore → Option BitStore
  | 0, b => some b
  | n + 1, b => (writeZeros n b).bind fun b' => b'.memWrite n 0

/-- The configuration registers and the BitStore stand (R217: the architectural state). -/
def State.SameArchitecture (s t : State) : Prop :=
  t.m = s.m ∧ t.k = s.k ∧ t.nchunks = s.nchunks ∧ t.constructed = s.constructed ∧ t.bitStore = s.bitStore

/-- The block after the commands of a list, each run in turn by `exec`. -/
def runCommands : List Instr → State → Host.Outcome State Fault Refusal
  | [], s => .next s
  | i :: rest, s =>
    match exec i s with
    | .next t => runCommands rest t
    | .fault r => .fault r
    | .refused r => .refused r

end Sys2Proof.Machine
end

