-- ==== Sys2Proof/Certificates/Slice0/Obligations.lean ====
section
/-! DEFINITION. Certificates/Slice0/Obligations.lean: the statements about the model, each with the rule of spec/
it formalises. -/

open Sys2Proof Sys2Proof.Machine

/-! ## Encoding -/

/-- Headers written out in 95_test_vectors.md V19 and V20 decode to the commands they stand for, or to none. -/
def Obligations.SampleWordsDecode : Prop :=
  decode ⟨0x01000000000000070000000000002572, []⟩ = .instr (.construct 7 9586) ∧
  decode ⟨0x01000000ffffffffffffffffffffffff, []⟩ = .instr (.construct 0xffffffff 0xffffffffffffffff) ∧
  decode ⟨0x02000000000000000000000000000000, [0x61]⟩ = .instr (.insert [0x61]) ∧
  decode ⟨0x03000000000000000000000000000000, []⟩ = .instr (.query []) ∧
  decode ⟨0x04000000ffffffff0000000000000000, [0x61]⟩ = .instr (.hash 0xffffffff [0x61]) ∧
  decode ⟨0x050000003c2569b20000000000000000, []⟩ = .instr (.coord 0x3c2569b2) ∧
  decode ⟨0x01000001000000070000000000002572, []⟩ = .illegal .reservedBits ∧
  decode ⟨0x02000000000000010000000000000000, [0x61]⟩ = .illegal .unusedOperand ∧
  decode ⟨0x050000003c2569b20000000000000000, [0x61]⟩ = .illegal .unexpectedPayload ∧
  decode ⟨0x06000000000000000000000000000000, []⟩ = .illegal .reservedOp

/-- Decoding an encoded command gives it back, for every command at every operand value (R81, R82, R84, R85). -/
def Obligations.DecodeOfEncode : Prop := ∀ i : Instr, decode (encode i) = .instr i

/-- Where a transaction decodes to a command, it is the one transaction that encodes it: no header bit and no
payload byte is dropped (R81, R82, R84, R85). -/
def Obligations.EncodeOfDecode : Prop := ∀ (c : Command) (i : Instr), decode c = .instr i → encode i = c

/-- R89, R213: a transaction for which one of (a) to (d) holds is answered IllegalCommand with no state change;
one for which none holds spells a command: the decoder checks nothing else. -/
def Obligations.IllegalTransactionsAnswerIllegalCommand : Prop :=
  ∀ c : Command,
    if (fieldOf c.header 127 120 < 1 ∨ 5 < fieldOf c.header 127 120)
        ∨ fieldOf c.header 119 96 ≠ 0
        ∨ ((fieldOf c.header 127 120 = 2 ∨ fieldOf c.header 127 120 = 3) ∧
            (fieldOf c.header 95 64 ≠ 0 ∨ fieldOf c.header 63 0 ≠ 0))
        ∨ ((fieldOf c.header 127 120 = 4 ∨ fieldOf c.header 127 120 = 5) ∧ fieldOf c.header 63 0 ≠ 0)
        ∨ ((fieldOf c.header 127 120 = 1 ∨ fieldOf c.header 127 120 = 5) ∧ c.payload ≠ []) then
      ∀ (s : State) (rest : List HostEvent), s.port = .command c :: rest →
        step s = .next { s with
          port := rest, responses := s.responses ++ [0x03000000000000000000000000000000] }
    else ∃ i, decode c = .instr i

/-- R83: a command's header satisfies `w and mask = match` for the command's row, a header that satisfies it for
some row is decoded as that row's command, and no header satisfies it for two rows. -/
def Obligations.MatchAndMaskSelectTheCommand : Prop :=
  (∀ (w : Wide) (p : List Byte) (i : Instr), decode ⟨w, p⟩ = .instr i → w &&& rowMask i = rowMatch i) ∧
  (∀ (w : Wide) (i : Instr), w &&& rowMask i = rowMatch i →
    ∃ j, decode ⟨w, []⟩ = .instr j ∧ rowMatch j = rowMatch i) ∧
  (∀ (w : Wide) (i j : Instr), w &&& rowMask i = rowMatch i → w &&& rowMask j = rowMatch j →
    rowMatch i = rowMatch j)

/-- R86, R87, R210: every command that completes emits one response word, whose STATUS is a code of R210, whose
RSV is zero, and whose R32 and R64 are zero when STATUS is not OK; the word is STATUS, RSV, R32, R64 from bit 127
down. -/
def Obligations.ResponseFormat : Prop :=
  (∀ (st : Status) (r : Word) (q : BitVec 64),
    (responseWord st r q).toNat = st.code.toNat * 2 ^ 120 + r.toNat * 2 ^ 64 + q.toNat) ∧
  ∀ (s t : State) (c : Command) (rest : List HostEvent),
    s.port = .command c :: rest → step s = .next t →
    ∃ w : Wide, t.responses = s.responses ++ [w] ∧ (responseStatus w).toNat ≤ 5 ∧ responseRsv w = 0 ∧
      (responseStatus w ≠ 0 → responseR32 w = 0 ∧ responseR64 w = 0)

/-! ## The step -/

/-- A step with a decodable transaction first on the port is `exec` of the decoded command, in the state with
that transaction taken off the port (R80, R244). -/
def Obligations.StepRunsTheDecodedCommand : Prop :=
  ∀ (s : State) (c : Command) (rest : List HostEvent) (i : Instr),
    s.port = .command c :: rest → decode c = .instr i → step s = exec i { s with port := rest }

/-- With nothing on the port, nothing changes (R20, R226). That the model takes such a step, and does not stop, is
its choice (log 2). -/
def Obligations.IdleBlockHoldsItsState : Prop := ∀ s : State, s.port = [] → step s = .next s

/-- R38, R240, R241: a reset, with or without a command in flight, leaves M, K, NCHUNKS and CONSTRUCTED zero and
emits no response; every byte of the BitStore is then an unspecified value of the new epoch (the model's form of
"unspecified", log 5), and the working registers are not spoken of. -/
def Obligations.ResetDropsTheFilter : Prop :=
  ∀ (s : State) (inFlight : Option Command) (rest : List HostEvent), s.port = .reset inFlight :: rest →
    ∃ t, step s = .next t ∧ t.m = 0 ∧ t.k = 0 ∧ t.nchunks = 0 ∧ t.constructed = false ∧
      t.port = rest ∧ t.responses = s.responses ∧ t.bitStore.maxChunks = s.bitStore.maxChunks ∧
      t.bitStore.epoch = s.bitStore.epoch + 1 ∧
      ∀ g, t.bitStore.byteAt g = Config.unspecifiedByte (s.bitStore.epoch + 1) g

/-- R247: from every state that meets the invariant, every command, whatever its header and payload, ends in one
step with exactly one response. -/
def Obligations.EveryCommandEndsWithOneResponse : Prop :=
  ∀ (s : State) (c : Command) (rest : List HostEvent), s.Inv → s.port = .command c :: rest →
    ∃ t w, step s = .next t ∧ t.port = rest ∧ t.responses = s.responses ++ [w]

/-! ## The hash engine -/

/-- R14: the five primitives on numbers. -/
def Obligations.PrimitivesOnNaturals : Prop :=
  ∀ a b : Word,
    (add32 a b).toNat = (a.toNat + b.toNat) % 2 ^ 32 ∧
    (mul32 a b).toNat = (a.toNat * b.toNat) % 2 ^ 32 ∧
    (∀ n, (xor32 a b).getLsbD n = Bool.xor (a.getLsbD n) (b.getLsbD n)) ∧
    (∀ r, r ≤ 31 → (shr32 a r).toNat = a.toNat / 2 ^ r) ∧
    (∀ r, 1 ≤ r → r ≤ 31 → (rotl32 a r).toNat = (a.toNat * 2 ^ r) % 2 ^ 32 + a.toNat / 2 ^ (32 - r))

/-- R112: a group of up to four bytes is packed big-endian, right-aligned. -/
def Obligations.PackIsBigEndian : Prop :=
  pack [] = 0 ∧
  ∀ g0 g1 g2 g3 : Byte,
    (pack [g0]).toNat = g0.toNat ∧
    (pack [g0, g1]).toNat = g0.toNat * 2 ^ 8 + g1.toNat ∧
    (pack [g0, g1, g2]).toNat = g0.toNat * 2 ^ 16 + g1.toNat * 2 ^ 8 + g2.toNat ∧
    (pack [g0, g1, g2, g3]).toNat =
      g0.toNat * 2 ^ 24 + g1.toNat * 2 ^ 16 + g2.toNat * 2 ^ 8 + g3.toNat

/-- The worked values of R113, R114 and R118. -/
def Obligations.WorkedHashValues : Prop :=
  scramble 0 = 0 ∧ scramble 0x61626364 = 0x08e7210b ∧
  mix 0 0 = 0xe6546b64 ∧ mix 0 0x61626364 = 0x5afb50f0 ∧ mix 0xffffffff 0xffffffff = 0xb849f5ee ∧
  fmix 0 = 0 ∧ fmix 1 = 0x514e28b7 ∧ fmix 0xffffffff = 0x81f16f39 ∧ fmix 0xe6546b64 = 0xff19274a ∧
  fmix 0x80000000 = 0x6d3c65a0

/-- R122, R123, R124: what the streaming micro-operations write. ACC and LEN are said on numbers. -/
def Obligations.MicroOperations : Prop :=
  (∀ seed : Word, hinit seed = { h := seed, acc := 0, cnt := 0, len := 0 }) ∧
  (∀ (e : HashEngine) (b : Byte),
    (hbyte e b).len.toNat = (e.len.toNat + 1) % 2 ^ 32 ∧
    ∃ acc : Word, acc.toNat = e.acc.toNat * 256 % 2 ^ 32 + b.toNat ∧
      (e.cnt.toNat = 3 → (hbyte e b).h = mix e.h acc ∧ (hbyte e b).acc = 0 ∧ (hbyte e b).cnt = 0) ∧
      (e.cnt.toNat ≠ 3 →
        (hbyte e b).h = e.h ∧ (hbyte e b).acc = acc ∧ (hbyte e b).cnt.toNat = e.cnt.toNat + 1)) ∧
  (∀ e : HashEngine,
    hfin e = { e with h := fmix (xor32 (xor32 e.h (scramble e.acc)) e.len) })

/-- R125: the streaming form computes Hash, and after the bytes absorbed so far LEN, CNT, ACC and H are what R125
says. -/
def Obligations.StreamingFormComputesHash : Prop :=
  ∀ (bytes : List Byte) (seed : Word),
    (hfin (bytes.foldl hbyte (hinit seed))).h = hashOf bytes seed ∧
    (bytes.foldl hbyte (hinit seed)).len.toNat = bytes.length % 2 ^ 32 ∧
    (bytes.foldl hbyte (hinit seed)).cnt.toNat = bytes.length % 4 ∧
    (bytes.foldl hbyte (hinit seed)).acc = pack (bytes.drop (4 * (bytes.length / 4))) ∧
    (bytes.foldl hbyte (hinit seed)).h = blockPhase seed (bytes.take (4 * (bytes.length / 4)))

/-- The identities of R127, and its three digests. -/
def Obligations.HashIdentities : Prop :=
  (∀ seed : Word, hashOf [] seed = fmix seed) ∧ hashOf [] 0 = 0 ∧
  (∀ (b : Byte) (seed : Word), hashOf [b] seed = fmix (xor32 (xor32 seed (scramble (b.setWidth 32))) 1)) ∧
  (∀ (a b c d : Byte) (seed : Word),
    hashOf [a, b, c, d] seed = fmix (xor32 (mix seed (pack [a, b, c, d])) 4)) ∧
  hashOf [0x61] 0 = 0x3c2569b2 ∧ hashOf [0x61, 0x62, 0x63, 0x64] 0 = 0xddb94720

/-- R115, R119: Hash peels one complete block off the front at a time, and the blocks come before tail, length
and finalization, under any seed. -/
def Obligations.BlocksAreMixedInOrder : Prop :=
  ∀ (blocks : List (Byte × Byte × Byte × Byte)) (tail : List Byte) (seed : Word), tail.length < 4 →
    hashOf (blocks.flatMap (fun b => [b.1, b.2.1, b.2.2.1, b.2.2.2]) ++ tail) seed =
      fmix (xor32
        (xor32 (blocks.foldl (fun h b => mix h (pack [b.1, b.2.1, b.2.2.1, b.2.2.2])) seed)
          (scramble (pack tail)))
        (BitVec.ofNat 32 (4 * blocks.length + tail.length)))

/-- R126: HASH has OP 0x04 and its seed in A; in every state it answers OK with the digest of its payload, and writes
nothing but the hash engine's registers. The digest of the empty payload is `fmix(seed)`. -/
def Obligations.HashAnswersTheDigest : Prop :=
  ∀ (seed : Word) (bytes : List Byte) (s : State),
    (encode (.hash seed bytes)).header.toNat = 4 * 2 ^ 120 + seed.toNat * 2 ^ 64 ∧
    (encode (.hash seed bytes)).payload = bytes ∧
    hashOf [] seed = fmix seed ∧
    ∃ e : HashEngine, exec (.hash seed bytes) s = .next { s with
      he := e, responses := s.responses ++ [responseWord .ok (hashOf bytes seed) 0] }

/-! ## Bit addressing -/

/-- R174: every coordinate is in range. -/
def Obligations.CoordinatesAreInRange : Prop :=
  ∀ (digest : Word) (m : BitVec 64), m ≠ 0 →
    (bitIndex digest m).toNat ≤ m.toNat - 1 ∧
    (coordinate digest m).chunk ≤ chunkCount m - 1 ∧
    (coordinate digest m).globalByte < chunkCount m * 32768

/-- R175: the corner digests. -/
def Obligations.CornerDigests : Prop :=
  ∀ m : BitVec 64,
    coordinate 0 m = { chunk := 0, byteInChunk := 0, bitInByte := 0 } ∧
    (m ≠ 0 →
      (bitIndex 0xffffffff m).toNat = m.toNat - (m.toNat + (2 ^ 32 - 1)) / 2 ^ 32 ∧
      (m.toNat ≤ 2 ^ 32 → (bitIndex 0xffffffff m).toNat = m.toNat - 1) ∧
      (2 ^ 32 < m.toNat → (bitIndex 0xffffffff m).toNat < m.toNat - 1) ∧
      ∀ digest : Word, (bitIndex digest m).toNat ≤ (bitIndex 0xffffffff m).toNat)

/-- The shape of the scaling map (R176): monotone; onto `[0, M)` with `floor(2^32 / M)` or `ceil(2^32 / M)` digests a
bit when `M <= 2^32`; one-to-one and not onto when `M > 2^32`; the identity when `M = 2^32`. -/
def Obligations.ShapeOfTheScalingMap : Prop :=
  ∀ m : BitVec 64, m ≠ 0 →
    (∀ d e : Word, d.toNat ≤ e.toNat → (bitIndex d m).toNat ≤ (bitIndex e m).toNat) ∧
    (m.toNat ≤ 2 ^ 32 → ∀ i, i < m.toNat →
      (∃ d : Word, (bitIndex d m).toNat = i) ∧
      ({d : Word | (bitIndex d m).toNat = i}.ncard = 2 ^ 32 / m.toNat ∨
        {d : Word | (bitIndex d m).toNat = i}.ncard = (2 ^ 32 + (m.toNat - 1)) / m.toNat)) ∧
    (2 ^ 32 < m.toNat →
      (∀ d e : Word, bitIndex d m = bitIndex e m → d = e) ∧
      ∃ i, i < m.toNat ∧ ∀ d : Word, (bitIndex d m).toNat ≠ i) ∧
    (m.toNat = 2 ^ 32 → ∀ d : Word, (bitIndex d m).toNat = d.toNat)

/-- R172, R173: the triple of a bit index is its slices, the bit index is recovered from it, and the three parts
are bounded. -/
def Obligations.TriplesAreSlices : Prop :=
  (∀ bi : BitVec 64,
    (tripleOf bi.toNat).chunk = (bi.extractLsb' 18 46).toNat ∧
    (tripleOf bi.toNat).byteInChunk = (bi.extractLsb' 3 15).toNat ∧
    (tripleOf bi.toNat).bitInByte = (bi.extractLsb' 0 3).toNat) ∧
  (∀ bi : Nat,
    bi = (tripleOf bi).chunk * 262144 + (tripleOf bi).byteInChunk * 8 + (tripleOf bi).bitInByte ∧
    (tripleOf bi).bitInByte ≤ 7 ∧ (tripleOf bi).byteInChunk ≤ 32767 ∧
    (tripleOf bi).globalByte = bi / 8) ∧
  (∀ bi bj : Nat, tripleOf bi = tripleOf bj → bi = bj)

/-- R171, R178: COORD has OP 0x05 and its digest in A; it answers `floor(digest * M / 2^32)` in R64 on a constructed
block and NotConstructed otherwise, and changes nothing. -/
def Obligations.CoordAnswersTheBitIndex : Prop :=
  ∀ (digest : Word) (s : State),
    (encode (.coord digest)).header.toNat = 5 * 2 ^ 120 + digest.toNat * 2 ^ 64 ∧
    (encode (.coord digest)).payload = [] ∧
    exec (.coord digest) s = .next { s with
      responses := s.responses ++
        [if s.constructed then responseWord .ok 0 (BitVec.ofNat 64 (digest.toNat * s.m.toNat / 2 ^ 32))
         else 0x04000000000000000000000000000000] }

/-! ## The BitStore controller -/

/-- R191: the chunk count is the nested ceiling and the single one, at least one and at most `2^46`, with the
values R191 lists. -/
def Obligations.ChunkCountIsTheCeiling : Prop :=
  (∀ m : BitVec 64, chunkCount m = (m.toNat ⌈/⌉ 8) ⌈/⌉ 32768 ∧ chunkCount m = m.toNat ⌈/⌉ 262144 ∧
    (m ≠ 0 → 1 ≤ chunkCount m) ∧ (m ≠ 0 → m.toNat ≤ 262144 → chunkCount m = 1) ∧
    chunkCount m ≤ 2 ^ 46) ∧
  chunkCount 1 = 1 ∧ chunkCount 262144 = 1 ∧ chunkCount 262145 = 2 ∧ chunkCount 3000000 = 12 ∧
  chunkCount 4294967296 = 16384 ∧ chunkCount 9585058378 = 36565 ∧
  chunkCount 18446744073709551615 = 2 ^ 46

/-- MemRead and MemWrite of R53: a write sets its byte and changes nothing else, a read has no side effect and
returns the latest write. Where the BitStore has no such byte neither is defined (the model's `none`, log 6). -/
def Obligations.ReadsReturnTheLatestWrite : Prop :=
  ∀ (b : BitStore) (g : Nat) (v : Byte), b.wf = true →
    if g < b.maxChunks * 32768 then
      ∃ b', b.memWrite g v = some b' ∧ b'.wf = true ∧ b'.memRead g = some v ∧
        ∀ g', g' ≠ g → b'.memRead g' = b.memRead g'
    else b.memWrite g v = none ∧ b.memRead g = none

/-- R192: BS_ALLOC zeroes every byte of chunks `0 .. nc-1` and touches no other, as its loop of MemWrites does. -/
def Obligations.AllocationZeroFills : Prop :=
  ∀ (b : BitStore) (nc : Nat), b.wf = true → nc ≤ b.maxChunks →
    (∀ g, g < nc * 32768 → (bsAlloc nc b).byteAt g = 0) ∧
    (∀ g, nc * 32768 ≤ g → (bsAlloc nc b).byteAt g = b.byteAt g) ∧
    ∃ b', writeZeros (nc * 32768) b = some b' ∧ ∀ g, b'.byteAt g = (bsAlloc nc b).byteAt g

/-- R193: BS_SET sets bit `j` of byte `c * 32768 + y` and leaves every other bit of every byte as it was, whatever
that bit was. -/
def Obligations.SetBitSetsOneBit : Prop :=
  ∀ (b : BitStore) (c y j : Nat), b.wf = true → c < b.maxChunks → y < 32768 → j < 8 →
    ∃ b', bsSet b { chunk := c, byteInChunk := y, bitInByte := j } = some b' ∧
      b'.byteAt (c * 32768 + y) = b.byteAt (c * 32768 + y) ||| (1 <<< j : Byte) ∧
      (∀ g, g ≠ c * 32768 + y → b'.byteAt g = b.byteAt g) ∧
      ∀ i, b'.bitAt i = (b.bitAt i || decide (i = (c * 32768 + y) * 8 + j))

/-- R194: BS_TEST answers bit `j` of byte `c * 32768 + y`. -/
def Obligations.TestBitReadsOneBit : Prop :=
  ∀ (b : BitStore) (c y j : Nat), c < b.maxChunks → y < 32768 → j < 8 →
    bsTest b { chunk := c, byteInChunk := y, bitInByte := j } = some (b.bitAt ((c * 32768 + y) * 8 + j))

/-! ## The filter store -/

/-- R145: CONSTRUCT has OP 0x01, `k` in A and `m` in B. It answers AlreadyConstructed on a constructed block, then
InvalidParameters for `m = 0` or `k = 0`, then AllocationFailure where the chunk count exceeds MAX_CHUNKS, each with
nothing else changed. Otherwise it answers OK with the chunk count, writes M, K, NCHUNKS and CONSTRUCTED, zero-fills
chunks `0 .. nc-1`, and leaves every other byte and every other register as it was. -/
def Obligations.ConstructBuildsTheFilter : Prop :=
  ∀ (k : Word) (m : BitVec 64) (s : State),
    (encode (.construct k m)).header.toNat = 1 * 2 ^ 120 + k.toNat * 2 ^ 64 + m.toNat ∧
    (encode (.construct k m)).payload = [] ∧
    if s.constructed = true then
      exec (.construct k m) s = .next { s with
        responses := s.responses ++ [0x05000000000000000000000000000000] }
    else if m = 0 ∨ k = 0 then
      exec (.construct k m) s = .next { s with
        responses := s.responses ++ [0x01000000000000000000000000000000] }
    else if s.bitStore.maxChunks < (m.toNat ⌈/⌉ 8) ⌈/⌉ 32768 then
      exec (.construct k m) s = .next { s with
        responses := s.responses ++ [0x02000000000000000000000000000000] }
    else
      ∃ b : BitStore,
        exec (.construct k m) s = .next { s with
          m := m, k := k, nchunks := BitVec.ofNat 64 ((m.toNat ⌈/⌉ 8) ⌈/⌉ 32768), constructed := true,
          bitStore := b,
          responses := s.responses ++
            [responseWord .ok 0 (BitVec.ofNat 64 ((m.toNat ⌈/⌉ 8) ⌈/⌉ 32768))] } ∧
        b.maxChunks = s.bitStore.maxChunks ∧
        (∀ g, g < (m.toNat ⌈/⌉ 8) ⌈/⌉ 32768 * 32768 → b.byteAt g = 0) ∧
        ∀ g, (m.toNat ⌈/⌉ 8) ⌈/⌉ 32768 * 32768 ≤ g → b.byteAt g = s.bitStore.byteAt g

/-- R216: a command reports the first error that applies, in the order IllegalCommand, the state check,
InvalidParameters, AllocationFailure. That the response is all an error leaves is R13's and R217's, for M, K, NCHUNKS,
CONSTRUCTED and the BitStore; that the working registers stand too is the model's reading (log 9): R217 leaves it
open. -/
def Obligations.ErrorPriority : Prop :=
  ∀ (s : State) (c : Command) (rest : List HostEvent), s.port = .command c :: rest →
    if c.wellFormed = false then
      step s = .next { s with port := rest, responses := s.responses ++ [0x03000000000000000000000000000000] }
    else
      (∀ k m, c = encode (.construct k m) →
        if s.constructed = true then
          step s = .next { s with port := rest, responses := s.responses ++ [0x05000000000000000000000000000000] }
        else if m = 0 ∨ k = 0 then
          step s = .next { s with port := rest, responses := s.responses ++ [0x01000000000000000000000000000000] }
        else if s.bitStore.maxChunks < chunkCount m then
          step s = .next { s with port := rest, responses := s.responses ++ [0x02000000000000000000000000000000] }
        else ∃ t, step s = .next t ∧
          t.responses = s.responses ++ [responseWord .ok 0 (BitVec.ofNat 64 (chunkCount m))]) ∧
      (∀ item, c = encode (.insert item) ∨ c = encode (.query item) → s.constructed = false →
        step s = .next { s with port := rest, responses := s.responses ++ [0x04000000000000000000000000000000] }) ∧
      (∀ digest, c = encode (.coord digest) → s.constructed = false →
        step s = .next { s with port := rest, responses := s.responses ++ [0x04000000000000000000000000000000] })

/-- R198: with `m >= 1` and `k >= 1` on a block not constructed, CONSTRUCT answers AllocationFailure exactly when the
chunk count exceeds MAX_CHUNKS, and then nothing but the response is written; after the failure a CONSTRUCT with an
`m` that fits succeeds. -/
def Obligations.AllocationFailsExactlyOverCapacity : Prop :=
  ∀ (k : Word) (m : BitVec 64) (s : State), s.constructed = false → m ≠ 0 → k ≠ 0 →
    (exec (.construct k m) s = .next { s with
        responses := s.responses ++ [0x02000000000000000000000000000000] } ↔
      s.bitStore.maxChunks < (m.toNat ⌈/⌉ 8) ⌈/⌉ 32768) ∧
    ∀ m' : BitVec 64, s.bitStore.maxChunks < (m.toNat ⌈/⌉ 8) ⌈/⌉ 32768 → m' ≠ 0 →
      (m'.toNat ⌈/⌉ 8) ⌈/⌉ 32768 ≤ s.bitStore.maxChunks →
      ∃ t u, exec (.construct k m) s = .next t ∧ exec (.construct k m') t = .next u ∧
        u.constructed = true ∧ u.m = m'

/-- R146, R148: INSERT has OP 0x02 and its item as the payload; on a constructed block it answers OK and sets exactly
the bits its K probes select; every byte no probe selects and every other register stands, but for the working
registers. Before CONSTRUCT it answers NotConstructed and changes nothing; that the working registers stand then is
the model's reading (log 9), which R217 leaves open. -/
def Obligations.InsertSetsTheProbedBits : Prop :=
  ∀ (item : List Byte) (s : State),
    encode (.insert item) = ⟨0x02000000000000000000000000000000, item⟩ ∧
    (s.constructed = false →
      exec (.insert item) s = .next { s with
        responses := s.responses ++ [0x04000000000000000000000000000000] }) ∧
    (s.Usable → s.bitStore.wf = true →
      ∃ (e : HashEngine) (sd : Word) (b : BitStore),
        exec (.insert item) s = .next { s with
          he := e, seed := sd, bitStore := b, responses := s.responses ++ [responseWord .ok 0 0] } ∧
        b.wf = true ∧ b.maxChunks = s.bitStore.maxChunks ∧
        (∀ i, b.bitAt i = true ↔ s.bitStore.bitAt i = true ∨ Probed item s.k s.m i) ∧
        ∀ g, (∀ i, Probed item s.k s.m i → i / 8 ≠ g) → b.byteAt g = s.bitStore.byteAt g)

/-- R147, R148, R156: QUERY has OP 0x03 and its item as the payload; on a constructed block it answers OK with 1
exactly when every one of the K probed bits is 1, and changes nothing but the working registers. Before CONSTRUCT it
answers NotConstructed and changes nothing; that the working registers stand then is the model's reading (log 9),
which R217 leaves open. -/
def Obligations.QueryAnswersAllProbedBits : Prop :=
  ∀ (item : List Byte) (s : State),
    encode (.query item) = ⟨0x03000000000000000000000000000000, item⟩ ∧
    (s.constructed = false →
      exec (.query item) s = .next { s with
        responses := s.responses ++ [0x04000000000000000000000000000000] }) ∧
    (s.Usable →
      ∃ (e : HashEngine) (sd : Word) (hit : Bool),
        exec (.query item) s = .next { s with
          he := e, seed := sd, hit := hit,
          responses := s.responses ++ [responseWord .ok (if hit then 1 else 0) 0] } ∧
        (hit = true ↔ ∀ i, Probed item s.k s.m i → s.bitStore.bitAt i = true))

/-- R155: QUERY changes no BitStore byte and no configuration register, in any state in which it completes. -/
def Obligations.QueryIsReadOnly : Prop :=
  ∀ (item : List Byte) (s t : State), exec (.query item) s = .next t → s.SameArchitecture t ∧ t.port = s.port

/-- The first corner case of R147: on a freshly constructed block every QUERY answers 0. -/
def Obligations.FreshFilterAnswersZero : Prop :=
  ∀ (k : Word) (m : BitVec 64) (s : State) (item : List Byte),
    s.constructed = false → m ≠ 0 → k ≠ 0 → chunkCount m ≤ s.bitStore.maxChunks →
    ∃ t u, exec (.construct k m) s = .next t ∧ exec (.query item) t = .next u ∧
      u.responses = t.responses ++ [responseWord .ok 0 0]

/-- R149: inserting the same item again changes no BitStore bit. -/
def Obligations.InsertIsIdempotent : Prop :=
  ∀ (item : List Byte) (s : State), s.Usable → s.bitStore.wf = true →
    ∃ t u, exec (.insert item) s = .next t ∧ exec (.insert item) t = .next u ∧ u.bitStore = t.bitStore

/-- R150: no false negatives. From a constructed state that meets the invariant, run an INSERT of an item and then
any number of transactions, legal or not, with no reset among them: a QUERY of the item then answers 1. -/
def Obligations.NoFalseNegatives : Prop :=
  ∀ (s : State) (item : List Byte) (rest : List HostEvent) (n : Nat),
    s.Inv → s.constructed = true → s.port = .command (encode (.insert item)) :: rest →
    (∀ e ∈ rest.take n, e.isCommand = true) →
    ∃ t u : State, Sys2Proof.core.run (n + 1) s = .next t ∧ exec (.query item) t = .next u ∧
      u.responses = t.responses ++ [responseWord .ok 1 0]

/-- R151, its exact part: the set of 1 bits only grows, so an item that queries true keeps querying true whatever
commands follow. -/
def Obligations.TrueAnswersPersist : Prop :=
  ∀ (s : State) (item : List Byte) (cmds : List Instr), s.Inv → s.constructed = true →
    (∃ u, exec (.query item) s = .next u ∧ u.responses = s.responses ++ [responseWord .ok 1 0]) →
    ∃ t u, runCommands cmds s = .next t ∧ exec (.query item) t = .next u ∧
      u.responses = t.responses ++ [responseWord .ok 1 0]

/-- R153, its last sentence: the BitStore after a sequence of INSERTs depends only on the set of items inserted, not
on their order or multiplicity. -/
def Obligations.InsertOrderDoesNotMatter : Prop :=
  ∀ (s : State) (items items' : List (List Byte)), s.Inv → s.constructed = true →
    (∀ x, x ∈ items ↔ x ∈ items') →
    ∃ t t', runCommands (items.map .insert) s = .next t ∧ runCommands (items'.map .insert) s = .next t' ∧
      t.bitStore = t'.bitStore

/-- R154: on a constructed block INSERT alone changes the BitStore, and no command clears a bit. -/
def Obligations.SetBitsStaySet : Prop :=
  ∀ (i : Instr) (s t : State), s.constructed = true → s.bitStore.wf = true → exec i s = .next t →
    ((∀ item, i ≠ .insert item) → t.bitStore = s.bitStore) ∧
    ∀ n, s.bitStore.bitAt n = true → t.bitStore.bitAt n = true

/-! ## Errors -/

/-- R217: a command that answers an error leaves M, K, NCHUNKS, CONSTRUCTED and every BitStore byte as they were, and
its response carries nothing but the status. -/
def Obligations.ErrorsLeaveNoTrace : Prop :=
  ∀ (s t : State) (c : Command) (rest : List HostEvent) (w : Wide),
    s.port = .command c :: rest → step s = .next t → t.responses = s.responses ++ [w] →
    responseStatus w ≠ 0 →
    s.SameArchitecture t ∧ responseR32 w = 0 ∧ responseR64 w = 0

/-- R227, R152: on a constructed block that meets the invariant INSERT, QUERY and COORD answer OK whatever their
operands; HASH answers OK in every state. -/
def Obligations.CommandsThatCannotFail : Prop :=
  (∀ (s : State) (item : List Byte) (digest : Word), s.Inv → s.constructed = true →
    ∀ i ∈ [Instr.insert item, .query item, .coord digest],
      ∃ t w, exec i s = .next t ∧ t.responses = s.responses ++ [w] ∧ responseStatus w = 0) ∧
  ∀ (s : State) (seed : Word) (bytes : List Byte),
    ∃ t w, exec (.hash seed bytes) s = .next t ∧ t.responses = s.responses ++ [w] ∧ responseStatus w = 0

/-- No access misses the BitStore: from a state that meets the invariant every step completes, so the model's one
fault is unreachable (R174, R195; log 6). -/
def Obligations.NoStepFaults : Prop := ∀ s : State, s.Inv → ∃ t, step s = .next t

/-! ## Invariants and whole-machine rules -/

/-- The state after reset meets the invariant, whatever the capacity, as long as there is a chunk (R11, R38). (That
CNT is LEN modulo 4 there rests on the reset values log 4 names.) -/
def Obligations.ResetMeetsTheInvariant : Prop :=
  State.reset.Inv ∧ ∀ n, 1 ≤ n → (State.resetWith n).Inv

/-- What reset leaves, as R38 gives it: M, K, NCHUNKS and CONSTRUCTED are zero. -/
def Obligations.ResetRegisters : Prop :=
  State.reset.m = 0 ∧ State.reset.k = 0 ∧ State.reset.nchunks = 0 ∧ State.reset.constructed = false

/-- Every step keeps the invariant (R21 to R24, R26, R29, R52, R192, R197): the shape registers are legal and agree,
only the chunks of the filter are written, the padding is zero, CNT is LEN modulo 4. -/
def Obligations.EveryStepKeepsTheInvariant : Prop := ∀ s t : State, s.Inv → step s = .next t → t.Inv

/-- Every step keeps the BitStore's canonical form, in states that no run reaches too. -/
def Obligations.EveryStepKeepsCanonicalMemory : Prop :=
  ∀ s t : State, s.bitStore.wf = true → step s = .next t → t.bitStore.wf = true

/-- R21 to R24, R37: once constructed, no command changes M, K, NCHUNKS or CONSTRUCTED; and nothing, reset
included, changes the capacity (R11). -/
def Obligations.ShapeIsImmutable : Prop :=
  (∀ (i : Instr) (s t : State), s.constructed = true → exec i s = .next t →
    t.m = s.m ∧ t.k = s.k ∧ t.nchunks = s.nchunks ∧ t.constructed = true) ∧
  ∀ s t : State, step s = .next t → t.bitStore.maxChunks = s.bitStore.maxChunks

/-- R34: the working registers are not observable. Two states that differ only in H, ACC, CNT, LEN, SEED and HIT
step alike, and differ afterwards in nothing else. -/
def Obligations.WorkingRegistersAreUnobservable : Prop :=
  ∀ s t : State, s.forgetWorking = t.forgetWorking →
    seenThrough State.forgetWorking (step s) = seenThrough State.forgetWorking (step t)

/-- No command reads an unspecified byte (R34, R38, R52, R192): from a state that meets the invariant, a step does
the same whatever the unspecified bytes are, until a reset draws new ones. -/
def Obligations.UnspecifiedBytesAreUnobservable : Prop :=
  ∀ (s : State) (e : Nat), s.Inv → (∀ f rest, s.port ≠ .reset f :: rest) →
    step (s.withEpoch e) = seenThrough (State.withEpoch e) (step s)

/-- R58: which commands reach the BitStore. HASH and COORD and QUERY leave every byte; INSERT writes at most the bytes
its probes select; CONSTRUCT writes at most the chunks it allocates. -/
def Obligations.WhichBytesACommandWrites : Prop :=
  ∀ (i : Instr) (s t : State) (g : Nat), s.bitStore.wf = true → exec i s = .next t →
    match i with
    | .construct _ m => chunkCount m * 32768 ≤ g → t.bitStore.byteAt g = s.bitStore.byteAt g
    | .insert item => (∀ n, Probed item s.k s.m n → n / 8 ≠ g) → t.bitStore.byteAt g = s.bitStore.byteAt g
    | .query _ | .hash _ _ | .coord _ => t.bitStore.byteAt g = s.bitStore.byteAt g

/-! ## The host's side -/

/-- R140: for `n >= 1` and `0 < p < 1` the bit-array size exists, is unique and is at least 1. -/
def Obligations.SizedBitArrayIsPositive : Prop :=
  ∀ (n : ℤ) (p : ℝ), 1 ≤ n → 0 < p → p < 1 →
    (∃! m, IsBitArraySize n p m) ∧ ∀ m, IsBitArraySize n p m → 1 ≤ m

/-- R142: `Size` has one outcome for every `n` and `p`, and for valid `n` and `p` it raises InvalidParameters only
because the derived `k` is 0. -/
def Obligations.SizeRaisesOnlyForZeroProbes : Prop :=
  ∀ (n : ℤ) (p : ℝ), (∃! r, IsSize n p r) ∧
    (0 < n → 0 < p → p < 1 → IsSize n p none → ∃ m, IsBitArraySize n p m ∧ IsProbeCount n m 0)

/-- R93, R143, R242: where `Size` raises, no command is sent; where it gives a size, `m` and `k` are at least 1, which
is all R143 lets a model assume of a host's `Size`. NEW with such a size, which the header can carry, is a CONSTRUCT
that an unconstructed block with room for it answers OK with the chunk count, and the block then holds that `m` and
`k`. -/
def Obligations.NewConstructs : Prop :=
  Pseudo.expand (.new none) = .report .invalidParameters ∧
  (∀ (n m k : ℤ) (p : ℝ), IsSize n p (some (m, k)) → 1 ≤ m ∧ 1 ≤ k) ∧
  ∀ (m k : ℤ) (s : State),
    1 ≤ m → m < 2 ^ 64 → 1 ≤ k → k < 2 ^ 32 → s.constructed = false →
    (m.toNat ⌈/⌉ 262144) ≤ s.bitStore.maxChunks →
    ∃ i t, Pseudo.expand (.new (some (m, k))) = .send i ∧ exec i s = .next t ∧
      (t.m.toNat : ℤ) = m ∧ (t.k.toNat : ℤ) = k ∧ t.constructed = true ∧
      t.responses = s.responses ++ [responseWord .ok 0 (BitVec.ofNat 64 (m.toNat ⌈/⌉ 262144))]

/-- R93, R158: text items are sent as their UTF-8 bytes (Lean's encoder, log 14, of the text as it stands, log 17), by
R158's examples; the other names are the same two commands. -/
def Obligations.PseudoInstructionsExpand : Prop :=
  Pseudo.expand (.insertT ['h', 'é', 'l', 'l', 'o']) = .send (.insert [0x68, 0xc3, 0xa9, 0x6c, 0x6c, 0x6f]) ∧
  Pseudo.expand (.queryT ['€']) = .send (.query [0xe2, 0x82, 0xac]) ∧
  ∀ item, Pseudo.expand (.contains item) = .send (.query item) ∧
    Pseudo.expand (.check item) = .send (.query item) ∧ Pseudo.expand (.add item) = .send (.insert item)
end

