-- ==== Sys2Proof/Laws/State.lean ====
section
/-! SUPPORT. Laws/State.lean: one lemma per field of State per named update, each true by unfolding the update
once, so that no later proof does. They are proved by cases and not by a bare rfl, so that simp rewrites with them and
leaves no comparison of whole states to the kernel. -/

namespace Sys2Proof.Machine

section Respond

variable (st : Status) (r : Word) (q : BitVec 64) (s : State)

@[simp] theorem State.respond_m : (s.respond st r q).m = s.m := by cases s; rfl
@[simp] theorem State.respond_k : (s.respond st r q).k = s.k := by cases s; rfl
@[simp] theorem State.respond_nchunks : (s.respond st r q).nchunks = s.nchunks := by cases s; rfl
@[simp] theorem State.respond_constructed : (s.respond st r q).constructed = s.constructed := by cases s; rfl
@[simp] theorem State.respond_bitStore : (s.respond st r q).bitStore = s.bitStore := by cases s; rfl
@[simp] theorem State.respond_he : (s.respond st r q).he = s.he := by cases s; rfl
@[simp] theorem State.respond_seed : (s.respond st r q).seed = s.seed := by cases s; rfl
@[simp] theorem State.respond_hit : (s.respond st r q).hit = s.hit := by cases s; rfl
@[simp] theorem State.respond_port : (s.respond st r q).port = s.port := by cases s; rfl
@[simp] theorem State.respond_responses : (s.respond st r q).responses = s.responses ++ [responseWord st r q] := by cases s; rfl

end Respond

section Raise

variable (e : Status) (s : State)

@[simp] theorem State.raise_m : (s.raise e).m = s.m := by cases s; rfl
@[simp] theorem State.raise_k : (s.raise e).k = s.k := by cases s; rfl
@[simp] theorem State.raise_nchunks : (s.raise e).nchunks = s.nchunks := by cases s; rfl
@[simp] theorem State.raise_constructed : (s.raise e).constructed = s.constructed := by cases s; rfl
@[simp] theorem State.raise_bitStore : (s.raise e).bitStore = s.bitStore := by cases s; rfl
@[simp] theorem State.raise_he : (s.raise e).he = s.he := by cases s; rfl
@[simp] theorem State.raise_seed : (s.raise e).seed = s.seed := by cases s; rfl
@[simp] theorem State.raise_hit : (s.raise e).hit = s.hit := by cases s; rfl
@[simp] theorem State.raise_port : (s.raise e).port = s.port := by cases s; rfl
@[simp] theorem State.raise_responses : (s.raise e).responses = s.responses ++ [responseWord e 0 0] := by cases s; rfl

end Raise

section Withport

variable (rest : List HostEvent) (s : State)

@[simp] theorem State.withPort_m : (s.withPort rest).m = s.m := by cases s; rfl
@[simp] theorem State.withPort_k : (s.withPort rest).k = s.k := by cases s; rfl
@[simp] theorem State.withPort_nchunks : (s.withPort rest).nchunks = s.nchunks := by cases s; rfl
@[simp] theorem State.withPort_constructed : (s.withPort rest).constructed = s.constructed := by cases s; rfl
@[simp] theorem State.withPort_bitStore : (s.withPort rest).bitStore = s.bitStore := by cases s; rfl
@[simp] theorem State.withPort_he : (s.withPort rest).he = s.he := by cases s; rfl
@[simp] theorem State.withPort_seed : (s.withPort rest).seed = s.seed := by cases s; rfl
@[simp] theorem State.withPort_hit : (s.withPort rest).hit = s.hit := by cases s; rfl
@[simp] theorem State.withPort_port : (s.withPort rest).port = rest := by cases s; rfl
@[simp] theorem State.withPort_responses : (s.withPort rest).responses = s.responses := by cases s; rfl

end Withport

section Withengine

variable (e : HashEngine) (s : State)

@[simp] theorem State.withEngine_m : (s.withEngine e).m = s.m := by cases s; rfl
@[simp] theorem State.withEngine_k : (s.withEngine e).k = s.k := by cases s; rfl
@[simp] theorem State.withEngine_nchunks : (s.withEngine e).nchunks = s.nchunks := by cases s; rfl
@[simp] theorem State.withEngine_constructed : (s.withEngine e).constructed = s.constructed := by cases s; rfl
@[simp] theorem State.withEngine_bitStore : (s.withEngine e).bitStore = s.bitStore := by cases s; rfl
@[simp] theorem State.withEngine_he : (s.withEngine e).he = e := by cases s; rfl
@[simp] theorem State.withEngine_seed : (s.withEngine e).seed = s.seed := by cases s; rfl
@[simp] theorem State.withEngine_hit : (s.withEngine e).hit = s.hit := by cases s; rfl
@[simp] theorem State.withEngine_port : (s.withEngine e).port = s.port := by cases s; rfl
@[simp] theorem State.withEngine_responses : (s.withEngine e).responses = s.responses := by cases s; rfl

end Withengine

section Withbitstore

variable (b : BitStore) (s : State)

@[simp] theorem State.withBitStore_m : (s.withBitStore b).m = s.m := by cases s; rfl
@[simp] theorem State.withBitStore_k : (s.withBitStore b).k = s.k := by cases s; rfl
@[simp] theorem State.withBitStore_nchunks : (s.withBitStore b).nchunks = s.nchunks := by cases s; rfl
@[simp] theorem State.withBitStore_constructed : (s.withBitStore b).constructed = s.constructed := by cases s; rfl
@[simp] theorem State.withBitStore_bitStore : (s.withBitStore b).bitStore = b := by cases s; rfl
@[simp] theorem State.withBitStore_he : (s.withBitStore b).he = s.he := by cases s; rfl
@[simp] theorem State.withBitStore_seed : (s.withBitStore b).seed = s.seed := by cases s; rfl
@[simp] theorem State.withBitStore_hit : (s.withBitStore b).hit = s.hit := by cases s; rfl
@[simp] theorem State.withBitStore_port : (s.withBitStore b).port = s.port := by cases s; rfl
@[simp] theorem State.withBitStore_responses : (s.withBitStore b).responses = s.responses := by cases s; rfl

end Withbitstore

section Withhit

variable (v : Bool) (s : State)

@[simp] theorem State.withHit_m : (s.withHit v).m = s.m := by cases s; rfl
@[simp] theorem State.withHit_k : (s.withHit v).k = s.k := by cases s; rfl
@[simp] theorem State.withHit_nchunks : (s.withHit v).nchunks = s.nchunks := by cases s; rfl
@[simp] theorem State.withHit_constructed : (s.withHit v).constructed = s.constructed := by cases s; rfl
@[simp] theorem State.withHit_bitStore : (s.withHit v).bitStore = s.bitStore := by cases s; rfl
@[simp] theorem State.withHit_he : (s.withHit v).he = s.he := by cases s; rfl
@[simp] theorem State.withHit_seed : (s.withHit v).seed = s.seed := by cases s; rfl
@[simp] theorem State.withHit_hit : (s.withHit v).hit = v := by cases s; rfl
@[simp] theorem State.withHit_port : (s.withHit v).port = s.port := by cases s; rfl
@[simp] theorem State.withHit_responses : (s.withHit v).responses = s.responses := by cases s; rfl

end Withhit

section Probe

variable (item : List Byte) (sd : Word) (s : State)

@[simp] theorem State.probe_m : (s.probe item sd).m = s.m := by cases s; rfl
@[simp] theorem State.probe_k : (s.probe item sd).k = s.k := by cases s; rfl
@[simp] theorem State.probe_nchunks : (s.probe item sd).nchunks = s.nchunks := by cases s; rfl
@[simp] theorem State.probe_constructed : (s.probe item sd).constructed = s.constructed := by cases s; rfl
@[simp] theorem State.probe_bitStore : (s.probe item sd).bitStore = s.bitStore := by cases s; rfl
@[simp] theorem State.probe_he : (s.probe item sd).he = hashPass sd item := by cases s; rfl
@[simp] theorem State.probe_seed : (s.probe item sd).seed = sd := by cases s; rfl
@[simp] theorem State.probe_hit : (s.probe item sd).hit = s.hit := by cases s; rfl
@[simp] theorem State.probe_port : (s.probe item sd).port = s.port := by cases s; rfl
@[simp] theorem State.probe_responses : (s.probe item sd).responses = s.responses := by cases s; rfl

end Probe

section Construct

variable (k : Word) (m : BitVec 64) (s : State)

@[simp] theorem State.construct_m : (s.construct k m).m = m := by cases s; rfl
@[simp] theorem State.construct_k : (s.construct k m).k = k := by cases s; rfl
@[simp] theorem State.construct_nchunks : (s.construct k m).nchunks = BitVec.ofNat 64 (chunkCount m) := by cases s; rfl
@[simp] theorem State.construct_constructed : (s.construct k m).constructed = true := by cases s; rfl
@[simp] theorem State.construct_bitStore : (s.construct k m).bitStore = bsAlloc (chunkCount m) s.bitStore := by cases s; rfl
@[simp] theorem State.construct_he : (s.construct k m).he = s.he := by cases s; rfl
@[simp] theorem State.construct_seed : (s.construct k m).seed = s.seed := by cases s; rfl
@[simp] theorem State.construct_hit : (s.construct k m).hit = s.hit := by cases s; rfl
@[simp] theorem State.construct_port : (s.construct k m).port = s.port := by cases s; rfl
@[simp] theorem State.construct_responses : (s.construct k m).responses = s.responses := by cases s; rfl

end Construct

section Offer

variable (c : Command) (s : State)

@[simp] theorem State.offer_m : (s.offer c).m = s.m := by cases s; rfl
@[simp] theorem State.offer_k : (s.offer c).k = s.k := by cases s; rfl
@[simp] theorem State.offer_nchunks : (s.offer c).nchunks = s.nchunks := by cases s; rfl
@[simp] theorem State.offer_constructed : (s.offer c).constructed = s.constructed := by cases s; rfl
@[simp] theorem State.offer_bitStore : (s.offer c).bitStore = s.bitStore := by cases s; rfl
@[simp] theorem State.offer_he : (s.offer c).he = s.he := by cases s; rfl
@[simp] theorem State.offer_seed : (s.offer c).seed = s.seed := by cases s; rfl
@[simp] theorem State.offer_hit : (s.offer c).hit = s.hit := by cases s; rfl
@[simp] theorem State.offer_port : (s.offer c).port = .command c :: s.port := by cases s; rfl
@[simp] theorem State.offer_responses : (s.offer c).responses = s.responses := by cases s; rfl

end Offer

section Takereset

variable (s : State)

@[simp] theorem State.takeReset_m : s.takeReset.m = 0 := by cases s; rfl
@[simp] theorem State.takeReset_k : s.takeReset.k = 0 := by cases s; rfl
@[simp] theorem State.takeReset_nchunks : s.takeReset.nchunks = 0 := by cases s; rfl
@[simp] theorem State.takeReset_constructed : s.takeReset.constructed = false := by cases s; rfl
@[simp] theorem State.takeReset_bitStore : s.takeReset.bitStore = s.bitStore.afterReset := by cases s; rfl
@[simp] theorem State.takeReset_he : s.takeReset.he = { len := 0, cnt := 0, acc := 0, h := 0 } := by cases s; rfl
@[simp] theorem State.takeReset_seed : s.takeReset.seed = 0 := by cases s; rfl
@[simp] theorem State.takeReset_hit : s.takeReset.hit = false := by cases s; rfl
@[simp] theorem State.takeReset_port : s.takeReset.port = s.port := by cases s; rfl
@[simp] theorem State.takeReset_responses : s.takeReset.responses = s.responses := by cases s; rfl

end Takereset

end Sys2Proof.Machine
end

