-- ==== Sys2Proof/Laws/Memory.lean ====
section
/-! SUPPORT. Laws/Memory.lean: what the operations over the BitStore's bytes do, and that each keeps the
canonical form. -/

namespace Sys2Proof.Machine

/-! ## Lists of cells -/

theorem cellsRiseFrom_le {lo lo' : Nat} (h : lo' ≤ lo) :
    ∀ {cs : List Host.Cell}, cellsRiseFrom lo cs = true → cellsRiseFrom lo' cs = true
  | [], _ => rfl
  | (a, w) :: rest, hc => by
    simp only [cellsRiseFrom, Bool.and_eq_true, decide_eq_true_eq] at hc ⊢
    exact ⟨h.trans hc.1, hc.2⟩

theorem cellsRiseFrom_mem {lo : Nat} :
    ∀ {cs : List Host.Cell}, cellsRiseFrom lo cs = true → ∀ c ∈ cs, lo ≤ c.1
  | [], _, c, hm => by simp at hm
  | (a, w) :: rest, hc, c, hm => by
    simp only [cellsRiseFrom, Bool.and_eq_true, decide_eq_true_eq] at hc
    rcases List.mem_cons.1 hm with rfl | hm
    · exact hc.1
    · have := cellsRiseFrom_mem hc.2 c hm
      omega

/-- An address below every listed one is not listed. -/
theorem listedByte_below {lo g : Nat} {cs : List Host.Cell} (hc : cellsRiseFrom lo cs = true) (hg : g < lo) :
    listedByte cs g = none := by
  induction cs generalizing lo with
  | nil => rfl
  | cons c rest ih =>
    obtain ⟨a, w⟩ := c
    simp only [cellsRiseFrom, Bool.and_eq_true, decide_eq_true_eq] at hc
    have hne : a ≠ g := by omega
    simp only [listedByte, hne, if_false]
    exact ih hc.2 (by omega)

theorem listedByte_setCell {lo : Nat} {cs : List Host.Cell} (hc : cellsRiseFrom lo cs = true) (g : Nat)
    (v u : Byte) (g' : Nat) :
    listedByte (setCell cs g v u) g' =
      if g' = g then (if v = u then none else some v) else listedByte cs g' := by
  induction cs generalizing lo with
  | nil =>
    simp only [setCell]
    split
    · simp [listedByte]
    · simp [listedByte, eq_comm]
  | cons c rest ih =>
    obtain ⟨a, w⟩ := c
    have hc0 := hc
    simp only [cellsRiseFrom, Bool.and_eq_true, decide_eq_true_eq] at hc
    simp only [setCell]
    split
    · next hag =>
      simp only [listedByte, ih hc.2]
      by_cases hg : g' = g
      · subst hg; rw [if_neg (by omega), if_pos rfl, if_pos rfl]
      · simp [hg]
    · next hag =>
      split
      · next heq =>
        subst heq
        by_cases hg : g' = a
        · subst hg
          split
          · rw [if_pos rfl]; exact listedByte_below hc.2 (by omega)
          · simp [listedByte]
        · have hg' : a ≠ g' := fun h => hg h.symm
          split <;> simp [listedByte, hg']
      · next hne =>
        by_cases hg : g' = g
        · subst hg
          split
          · rw [if_pos rfl]
            exact listedByte_below (lo := a) (by simp [cellsRiseFrom, hc.2]) (by omega)
          · simp [listedByte]
        · have hg' : g ≠ g' := fun h => hg h.symm
          split <;> simp [listedByte, hg']

theorem cellsRiseFrom_setCell {lo g : Nat} {v u : Byte} {cs : List Host.Cell} (hc : cellsRiseFrom lo cs = true)
    (hg : lo ≤ g) : cellsRiseFrom lo (setCell cs g v u) = true := by
  induction cs generalizing lo with
  | nil =>
    simp only [setCell]
    split <;> simp [cellsRiseFrom, hg]
  | cons c rest ih =>
    obtain ⟨a, w⟩ := c
    have hc0 := hc
    simp only [cellsRiseFrom, Bool.and_eq_true, decide_eq_true_eq] at hc
    simp only [setCell]
    split
    · simp only [cellsRiseFrom, Bool.and_eq_true, decide_eq_true_eq]
      exact ⟨hc.1, ih hc.2 (by omega)⟩
    · split
      · next heq =>
        subst heq
        split
        · exact cellsRiseFrom_le (by omega) hc.2
        · simp only [cellsRiseFrom, Bool.and_eq_true, decide_eq_true_eq]; exact hc
      · split
        · exact hc0
        · simp only [cellsRiseFrom, Bool.and_eq_true, decide_eq_true_eq]
          exact ⟨hg, by omega, hc.2⟩

theorem cellsRiseFrom_filter {lo : Nat} (p : Host.Cell → Bool) {cs : List Host.Cell}
    (hc : cellsRiseFrom lo cs = true) : cellsRiseFrom lo (cs.filter p) = true := by
  induction cs generalizing lo with
  | nil => rfl
  | cons c rest ih =>
    obtain ⟨a, w⟩ := c
    simp only [cellsRiseFrom, Bool.and_eq_true, decide_eq_true_eq] at hc
    rw [List.filter_cons]
    split
    · simp only [cellsRiseFrom, Bool.and_eq_true, decide_eq_true_eq]
      exact ⟨hc.1, ih hc.2⟩
    · exact cellsRiseFrom_le (by omega) (ih hc.2)

/-- A cell of the new list is the one set, and then not the unlisted value, or an old one. -/
theorem mem_setCell {cs : List Host.Cell} {g : Nat} {v u : Byte} {c : Host.Cell} (h : c ∈ setCell cs g v u) :
    (c = (g, v) ∧ v ≠ u) ∨ c ∈ cs := by
  induction cs with
  | nil =>
    simp only [setCell] at h
    split at h <;> simp_all
  | cons d rest ih =>
    obtain ⟨a, w⟩ := d
    simp only [setCell] at h
    split at h
    · rcases List.mem_cons.1 h with h | h
      · exact .inr (h ▸ List.mem_cons_self)
      · exact (ih h).imp id (List.mem_cons_of_mem _)
    · split at h
      · split at h
        · exact .inr (List.mem_cons_of_mem _ h)
        · next hvu => exact (List.mem_cons.1 h).imp (fun h => ⟨h, hvu⟩) (List.mem_cons_of_mem _)
      · split at h
        · exact .inr h
        · next hvu => exact (List.mem_cons.1 h).imp (fun h => ⟨h, hvu⟩) id

theorem listedByte_mem {cs : List Host.Cell} {g : Nat} {v : Byte} (h : listedByte cs g = some v) : (g, v) ∈ cs := by
  induction cs with
  | nil => simp [listedByte] at h
  | cons d rest ih =>
    obtain ⟨a, w⟩ := d
    simp only [listedByte] at h
    split at h
    · simp_all
    · exact List.mem_cons_of_mem _ (ih h)

/-! ## What the canonical form says -/

theorem BitStore.wf_iff (b : BitStore) :
    b.wf = true ↔ cellsRiseFrom 0 b.cells = true ∧ ∀ c ∈ b.cells, c.1 < b.size ∧ c.2 ≠ b.unlisted c.1 := by
  simp only [BitStore.wf, Bool.and_eq_true, List.all_eq_true, decide_eq_true_eq]

/-- An empty list of cells is in canonical form. -/
theorem BitStore.wf_of_nil {b : BitStore} (h : b.cells = []) : b.wf = true := by
  rw [BitStore.wf_iff]; simp [h, cellsRiseFrom]

/-- The reset memory is in canonical form. -/
theorem reset_bitStore_wf (n : Nat) : (State.resetWith n).bitStore.wf = true := BitStore.wf_of_nil rfl

/-! ## One byte set -/

@[simp] theorem BitStore.setByte_maxChunks (b : BitStore) (g : Nat) (v : Byte) :
    (b.setByte g v).maxChunks = b.maxChunks := by cases b; rfl
@[simp] theorem BitStore.setByte_epoch (b : BitStore) (g : Nat) (v : Byte) : (b.setByte g v).epoch = b.epoch := by
  cases b; rfl
@[simp] theorem BitStore.setByte_filled (b : BitStore) (g : Nat) (v : Byte) : (b.setByte g v).filled = b.filled := by
  cases b; rfl
@[simp] theorem BitStore.setByte_size (b : BitStore) (g : Nat) (v : Byte) : (b.setByte g v).size = b.size := by
  unfold BitStore.size; rw [BitStore.setByte_maxChunks]
@[simp] theorem BitStore.setByte_unlisted (b : BitStore) (g : Nat) (v : Byte) :
    (b.setByte g v).unlisted = b.unlisted := by cases b; rfl

@[simp] theorem BitStore.setByte_cells (b : BitStore) (g : Nat) (v : Byte) :
    (b.setByte g v).cells = setCell b.cells g v (b.unlisted g) := by cases b; rfl

/-- Every byte after one byte is set. -/
theorem BitStore.byteAt_setByte {b : BitStore} (hb : b.wf = true) (g : Nat) (v : Byte) (g' : Nat) :
    (b.setByte g v).byteAt g' = if g' = g then v else b.byteAt g' := by
  unfold BitStore.byteAt
  rw [BitStore.setByte_unlisted, BitStore.setByte_cells, listedByte_setCell (b.wf_iff.1 hb).1]
  by_cases hg : g' = g
  · subst hg
    by_cases hv : v = b.unlisted g'
    · simp [hv]
    · simp [hv]
  · simp [hg]

/-- Setting a byte that exists keeps the canonical form. -/
theorem BitStore.setByte_wf {b : BitStore} (hb : b.wf = true) {g : Nat} (hg : g < b.size) (v : Byte) :
    (b.setByte g v).wf = true := by
  obtain ⟨hr, hc⟩ := b.wf_iff.1 hb
  refine (BitStore.wf_iff _).2 ⟨?_, ?_⟩
  · rw [BitStore.setByte_cells]; exact cellsRiseFrom_setCell hr (Nat.zero_le _)
  · intro c hm
    rw [BitStore.setByte_size, BitStore.setByte_unlisted]
    rw [BitStore.setByte_cells] at hm
    rcases mem_setCell hm with ⟨rfl, hv⟩ | hm
    · exact ⟨hg, hv⟩
    · exact hc c hm

/-- Two canonical stores of one shape that read alike are equal: the form is canonical. -/
theorem cells_ext {lo : Nat} {u : Nat → Byte} {cs ds : List Host.Cell} (hc : cellsRiseFrom lo cs = true)
    (hd : cellsRiseFrom lo ds = true) (uc : ∀ c ∈ cs, c.2 ≠ u c.1) (ud : ∀ c ∈ ds, c.2 ≠ u c.1)
    (h : ∀ g, (listedByte cs g).getD (u g) = (listedByte ds g).getD (u g)) : cs = ds := by
  induction cs generalizing lo ds with
  | nil =>
    cases ds with
    | nil => rfl
    | cons d rest =>
      have h1 := h d.1
      have h2 := ud d List.mem_cons_self
      simp only [listedByte] at h1
      simp_all
  | cons c rest ih =>
    cases ds with
    | nil =>
      have h1 := h c.1
      have h2 := uc c List.mem_cons_self
      simp only [listedByte] at h1
      simp_all
    | cons d rest' =>
      obtain ⟨a, v⟩ := c
      obtain ⟨a', v'⟩ := d
      simp only [cellsRiseFrom, Bool.and_eq_true, decide_eq_true_eq] at hc hd
      have hvc := uc _ List.mem_cons_self
      have hvd := ud _ List.mem_cons_self
      have haa : a = a' := by
        rcases Nat.lt_trichotomy a a' with hlt | heq | hlt
        · have h1 := h a
          have h2 : listedByte ((a', v') :: rest') a = none :=
            listedByte_below (lo := a') (by simp [cellsRiseFrom, hd.2]) hlt
          rw [h2] at h1
          simp only [listedByte] at h1
          simp_all
        · exact heq
        · have h1 := h a'
          have h2 : listedByte ((a, v) :: rest) a' = none :=
            listedByte_below (lo := a) (by simp [cellsRiseFrom, hc.2]) hlt
          rw [h2] at h1
          simp only [listedByte] at h1
          simp_all
      subst haa
      have hvv : v = v' := by
        have h1 := h a
        simpa [listedByte] using h1
      subst hvv
      congr 1
      refine ih hc.2 hd.2 (fun c hm => uc c (List.mem_cons_of_mem _ hm)) (fun c hm => ud c (List.mem_cons_of_mem _ hm)) ?_
      intro g
      have h1 := h g
      by_cases hg : a = g
      · subst hg
        rw [listedByte_below hc.2 (by omega), listedByte_below hd.2 (by omega)]
      · simpa [listedByte, hg] using h1

/-- Two canonical BitStores of one capacity, epoch and zero-filled part that read alike are the same data. -/
theorem BitStore.ext_of_byteAt {b d : BitStore} (hb : b.wf = true) (hd : d.wf = true)
    (h1 : b.maxChunks = d.maxChunks) (h2 : b.epoch = d.epoch) (h3 : b.filled = d.filled)
    (h : ∀ g, b.byteAt g = d.byteAt g) : b = d := by
  obtain ⟨hbr, hbc⟩ := b.wf_iff.1 hb
  obtain ⟨hdr, hdc⟩ := d.wf_iff.1 hd
  have hu : b.unlisted = d.unlisted := by funext g; simp [BitStore.unlisted, h2, h3]
  have hcells : b.cells = d.cells := by
    refine cells_ext (u := b.unlisted) hbr hdr (fun c hm => (hbc c hm).2)
      (fun c hm => by rw [hu]; exact (hdc c hm).2) ?_
    intro g
    have := h g
    unfold BitStore.byteAt at this
    rw [← hu] at this
    cases hx : listedByte b.cells g <;> cases hy : listedByte d.cells g <;> simp_all
  cases b; cases d; simp_all

/-! ## BS_ALLOC -/

@[simp] theorem bsAlloc_maxChunks (nc : Nat) (b : BitStore) : (bsAlloc nc b).maxChunks = b.maxChunks := by
  cases b; rfl
@[simp] theorem bsAlloc_epoch (nc : Nat) (b : BitStore) : (bsAlloc nc b).epoch = b.epoch := by cases b; rfl
@[simp] theorem bsAlloc_filled (nc : Nat) (b : BitStore) : (bsAlloc nc b).filled = max b.filled nc := by
  cases b; rfl
@[simp] theorem bsAlloc_size (nc : Nat) (b : BitStore) : (bsAlloc nc b).size = b.size := by
  unfold BitStore.size; rw [bsAlloc_maxChunks]

theorem listedByte_filter (p : Nat → Bool) (cs : List Host.Cell) (g : Nat) :
    listedByte (cs.filter fun c => p c.1) g = if p g then listedByte cs g else none := by
  induction cs with
  | nil => simp [listedByte]
  | cons c rest ih =>
    obtain ⟨a, w⟩ := c
    rw [List.filter_cons]
    by_cases hp : p a = true
    · simp only [hp, if_true, listedByte, ih]
      by_cases hag : a = g
      · subst hag; simp [hp]
      · simp [hag]
    · simp only [hp, Bool.false_eq_true, if_false, ih, listedByte]
      by_cases hag : a = g
      · subst hag; simp [hp]
      · simp [hag]

/-- Above the allocated chunks, an unlisted byte reads as before. -/
theorem bsAlloc_unlisted_above {nc : Nat} {b : BitStore} {g : Nat} (hg : nc * 32768 ≤ g) :
    (bsAlloc nc b).unlisted g = b.unlisted g := by
  have hiff : g < max b.filled nc * 32768 ↔ g < b.filled * 32768 := by
    rcases Nat.le_total b.filled nc with h | h
    · rw [Nat.max_eq_right h]
      have : b.filled * 32768 ≤ nc * 32768 := Nat.mul_le_mul_right _ h
      omega
    · rw [Nat.max_eq_left h]
  simp only [BitStore.unlisted, bsAlloc_filled, bsAlloc_epoch, Config.chunkBytes, hiff]

/-- Inside the allocated chunks, an unlisted byte reads as zero. -/
theorem bsAlloc_unlisted_below {nc : Nat} {b : BitStore} {g : Nat} (hg : g < nc * 32768) :
    (bsAlloc nc b).unlisted g = 0 := by
  have h : nc * 32768 ≤ max b.filled nc * 32768 := Nat.mul_le_mul_right _ (Nat.le_max_right _ _)
  simp only [BitStore.unlisted, bsAlloc_filled, Config.chunkBytes]
  rw [if_pos (Nat.lt_of_lt_of_le hg h)]

/-- Every byte after BS_ALLOC. -/
theorem bsAlloc_byteAt (nc : Nat) (b : BitStore) (g : Nat) :
    (bsAlloc nc b).byteAt g = if g < nc * 32768 then 0 else b.byteAt g := by
  unfold BitStore.byteAt
  have hl : listedByte (bsAlloc nc b).cells g =
      if decide (nc * 32768 ≤ g) = true then listedByte b.cells g else none :=
    listedByte_filter (fun a => decide (nc * 32768 ≤ a)) b.cells g
  rw [hl]
  by_cases hg : g < nc * 32768
  · rw [if_neg (by simp; omega), if_pos hg]
    exact bsAlloc_unlisted_below hg
  · rw [if_pos (by simp; omega), if_neg hg, bsAlloc_unlisted_above (by omega)]

/-- BS_ALLOC keeps the canonical form. -/
theorem bsAlloc_wf {b : BitStore} (hb : b.wf = true) (nc : Nat) : (bsAlloc nc b).wf = true := by
  obtain ⟨hr, hc⟩ := b.wf_iff.1 hb
  refine (BitStore.wf_iff _).2 ⟨cellsRiseFrom_filter _ hr, ?_⟩
  intro c hm
  have hm' : c ∈ b.cells.filter fun c => decide (nc * 32768 ≤ c.1) := hm
  rw [List.mem_filter, decide_eq_true_eq] at hm'
  rw [bsAlloc_size, bsAlloc_unlisted_above hm'.2]
  exact hc c hm'.1

/-- A reset leaves the canonical form. -/
theorem BitStore.afterReset_wf (b : BitStore) : b.afterReset.wf = true := BitStore.wf_of_nil rfl

/-! ## BS_SET and BS_TEST -/

/-- BS_SET answers exactly where the byte exists, and sets that byte to its old value with the mask or-ed in. -/
theorem bsSet_eq_some {b b' : BitStore} {c : Coordinate} :
    bsSet b c = some b' ↔
      c.globalByte < b.size ∧ b' = b.setByte c.globalByte (b.byteAt c.globalByte ||| bitMask c.bitInByte) := by
  unfold bsSet BitStore.memRead BitStore.memWrite
  by_cases h : c.globalByte < b.size <;> simp [h, eq_comm]

/-- BS_SET of a byte that exists. -/
theorem bsSet_of_lt {b : BitStore} {c : Coordinate} (h : c.globalByte < b.size) :
    bsSet b c = some (b.setByte c.globalByte (b.byteAt c.globalByte ||| bitMask c.bitInByte)) :=
  bsSet_eq_some.2 ⟨h, rfl⟩

/-- BS_SET keeps the canonical form. -/
theorem bsSet_wf {b b' : BitStore} {c : Coordinate} (hb : b.wf = true) (h : bsSet b c = some b') :
    b'.wf = true := by
  obtain ⟨hlt, rfl⟩ := bsSet_eq_some.1 h
  exact BitStore.setByte_wf hb hlt _

/-- Bit `j` of a byte shifted down and masked. -/
theorem shifted_and_one (v : Byte) (j : Nat) : ((v >>> j) &&& 1 == 1) = v.getLsbD j := by
  have h : ((v >>> j) &&& 1) = if v.getLsbD j then 1 else 0 := by
    apply BitVec.eq_of_getLsbD_eq
    intro i hi
    have h1 : (1 : Byte).getLsbD i = decide (i = 0) := by simp [BitVec.getLsbD_one]
    rw [BitVec.getLsbD_and, BitVec.getLsbD_ushiftRight, h1]
    rcases Nat.eq_zero_or_pos i with rfl | hi0
    · cases hv : v.getLsbD j <;> simp
    · rw [show decide (i = 0) = false by simp; omega, Bool.and_false]
      split
      · rw [h1]; simp; omega
      · simp
  rw [h]
  cases v.getLsbD j <;> decide

/-- BS_TEST answers exactly where the byte exists, with the bit. -/
theorem bsTest_eq_some {b : BitStore} {c : Coordinate} {r : Bool} :
    bsTest b c = some r ↔ c.globalByte < b.size ∧ r = (b.byteAt c.globalByte).getLsbD c.bitInByte := by
  unfold bsTest BitStore.memRead
  by_cases h : c.globalByte < b.size
  · simp only [h, if_true, shifted_and_one, Option.some.injEq, true_and, eq_comm]
  · simp [h]

theorem bsTest_of_lt {b : BitStore} {c : Coordinate} (h : c.globalByte < b.size) :
    bsTest b c = some ((b.byteAt c.globalByte).getLsbD c.bitInByte) := bsTest_eq_some.2 ⟨h, rfl⟩

end Sys2Proof.Machine
end

