-- ==== Sys2Proof/Laws/Addressing.lean ====
section
/-! SUPPORT. Laws/Addressing.lean: the scaling transform, the triple and the chunk count on numbers. -/

namespace Sys2Proof.Machine

/-- The scaling transform on numbers: the 96-bit product does not wrap. -/
theorem bitIndex_toNat (d : Word) (m : BitVec 64) : (bitIndex d m).toNat = d.toNat * m.toNat / 2 ^ 32 := by
  have hd : d.toNat < 2 ^ 32 := d.isLt
  have hm : m.toNat < 2 ^ 64 := m.isLt
  have hp : d.toNat * m.toNat < 2 ^ 32 * 2 ^ 64 := Nat.mul_lt_mul'' hd hm
  have hq : d.toNat * m.toNat / 2 ^ 32 < 2 ^ 64 := Nat.div_lt_of_lt_mul hp
  unfold bitIndex
  rw [BitVec.toNat_setWidth, BitVec.toNat_ushiftRight, BitVec.toNat_mul, BitVec.toNat_setWidth,
    BitVec.toNat_setWidth, Nat.shiftRight_eq_div_pow, Nat.mod_eq_of_lt (a := d.toNat) (by omega),
    Nat.mod_eq_of_lt (a := m.toNat) (by omega), Nat.mod_eq_of_lt (a := d.toNat * m.toNat) (by omega),
    Nat.mod_eq_of_lt hq]

/-- The global byte of a bit index's triple. -/
theorem tripleOf_globalByte (bi : Nat) : (tripleOf bi).globalByte = bi / 8 := by
  simp only [tripleOf, Coordinate.globalByte]; omega

/-- The bit of a bit index's triple. -/
theorem tripleOf_bitInByte (bi : Nat) : (tripleOf bi).bitInByte = bi % 8 := by
  simp only [tripleOf]; omega

/-- `M` fits in its chunks. -/
theorem le_chunkCount (m : BitVec 64) : m.toNat ≤ chunkCount m * 262144 := by
  unfold chunkCount; omega

/-- Every scaled index lies below `M` (`M` not zero). -/
theorem bitIndex_lt {m : BitVec 64} (hm : m ≠ 0) (d : Word) : (bitIndex d m).toNat < m.toNat := by
  have hpos : 0 < m.toNat := by
    rcases Nat.eq_zero_or_pos m.toNat with h | h
    · exact absurd (BitVec.eq_of_toNat_eq (by simpa using h)) hm
    · exact h
  rw [bitIndex_toNat]
  exact Nat.div_lt_of_lt_mul (Nat.mul_lt_mul_of_pos_right d.isLt hpos)

/-- Bit `i` of a store after one byte is set. -/
theorem BitStore.bitAt_setByte {b : BitStore} (hb : b.wf = true) (g : Nat) (v : Byte) (i : Nat) :
    (b.setByte g v).bitAt i = if i / 8 = g then v.getLsbD (i % 8) else b.bitAt i := by
  unfold BitStore.bitAt
  rw [BitStore.byteAt_setByte hb]
  split <;> rfl

/-- The mask has one bit. -/
theorem bitMask_getLsbD {j n : Nat} (hj : j < 8) : (bitMask j).getLsbD n = decide (n = j) := by
  unfold bitMask
  interval_cases j <;> by_cases hn : n < 8 <;> first
    | (interval_cases n <;> decide)
    | (rw [BitVec.getLsbD_of_ge _ _ (by omega)]; simp; omega)

end Sys2Proof.Machine
end

