-- ==== Sys2Proof/Laws/HashEngine.lean ====
section
/-! SUPPORT. Laws/HashEngine.lean: the streaming registers, one lemma per micro-operation and their count. -/

namespace Sys2Proof.Machine

/-- HBYTE on a byte that does not end a block. -/
theorem hbyte_of_ne {e : HashEngine} (h : e.cnt ≠ 3) (b : Byte) :
    hbyte e b = { h := e.h, acc := packByte e.acc b, cnt := e.cnt + 1, len := e.len + 1 } := by
  unfold hbyte; rw [if_neg h]

/-- HBYTE on the fourth byte of a block. -/
theorem hbyte_of_eq {e : HashEngine} (h : e.cnt = 3) (b : Byte) :
    hbyte e b = { h := mix e.h (packByte e.acc b), acc := 0, cnt := 0, len := e.len + 1 } := by
  unfold hbyte; rw [if_pos h]

@[simp] theorem hbyte_len (e : HashEngine) (b : Byte) : (hbyte e b).len = e.len + 1 := by
  by_cases h : e.cnt = 3
  · rw [hbyte_of_eq h]
  · rw [hbyte_of_ne h]

/-- HBYTE counts bytes modulo 4. -/
@[simp] theorem hbyte_cnt (e : HashEngine) (b : Byte) : (hbyte e b).cnt = e.cnt + 1 := by
  by_cases h : e.cnt = 3
  · rw [hbyte_of_eq h, h]; rfl
  · rw [hbyte_of_ne h]

@[simp] theorem hfin_len (e : HashEngine) : (hfin e).len = e.len := by cases e; rfl
@[simp] theorem hfin_cnt (e : HashEngine) : (hfin e).cnt = e.cnt := by cases e; rfl
@[simp] theorem hfin_acc (e : HashEngine) : (hfin e).acc = e.acc := by cases e; rfl

/-- A complete block at the front is mixed first. -/
theorem blockPhase_block (h : Word) (b0 b1 b2 b3 : Byte) (rest : List Byte) :
    blockPhase h (b0 :: b1 :: b2 :: b3 :: rest) = blockPhase (mix h (pack [b0, b1, b2, b3])) rest := by
  simp only [blockPhase, blocksOf, List.foldl]

/-- An input without a complete block has nothing to mix and is its own tail. -/
theorem blocksOf_short {bytes : List Byte} (h : bytes.length < 4) : blocksOf bytes = [] ∧ tailBytes bytes = bytes := by
  match bytes, h with
  | [], _ => exact ⟨rfl, rfl⟩
  | [_], _ => exact ⟨rfl, rfl⟩
  | [_, _], _ => exact ⟨rfl, rfl⟩
  | [_, _, _], _ => exact ⟨rfl, rfl⟩

/-- HBYTE keeps `CNT = LEN mod 4`: LEN wraps at a multiple of 4. -/
theorem hbyte_counting {e : HashEngine} (h : e.cnt.toNat = e.len.toNat % 4) (b : Byte) :
    (hbyte e b).cnt.toNat = (hbyte e b).len.toNat % 4 := by
  have h1 : e.len.toNat < 2 ^ 32 := e.len.isLt
  rw [hbyte_cnt, hbyte_len, BitVec.toNat_add, BitVec.toNat_add, show (1 : BitVec 2).toNat = 1 from rfl,
    show (1 : Word).toNat = 1 from rfl]
  omega

/-- So does a run of HBYTEs. -/
theorem foldl_hbyte_counting (bytes : List Byte) {e : HashEngine} (h : e.cnt.toNat = e.len.toNat % 4) :
    (bytes.foldl hbyte e).cnt.toNat = (bytes.foldl hbyte e).len.toNat % 4 := by
  induction bytes generalizing e with
  | nil => exact h
  | cons b rest ih => exact ih (hbyte_counting h b)

/-- A whole pass leaves `CNT = LEN mod 4`. -/
theorem hashPass_counting (seed : Word) (bytes : List Byte) :
    (hashPass seed bytes).cnt.toNat = (hashPass seed bytes).len.toNat % 4 := by
  unfold hashPass absorb
  rw [hfin_cnt, hfin_len]
  exact foldl_hbyte_counting bytes (by simp [hinit])

end Sys2Proof.Machine
end

