-- ==== Sys2Proof/Laws/Probes.lean ====
section
/-! SUPPORT. Laws/Probes.lean: what the probe loops of INSERT and QUERY can do, said once. -/

namespace Sys2Proof.Machine

/-- The bit index a probe selects under M, by the pass the loops run. -/
def passIndex (item : List Byte) (seed : Word) (m : BitVec 64) : Nat := (bitIndex (hashPass seed item).h m).toNat

theorem probeCoordinate_globalByte (item : List Byte) (seed : Word) (s : State) :
    (probeCoordinate item seed s).globalByte = passIndex item seed s.m / 8 := tripleOf_globalByte _

theorem probeCoordinate_bitInByte (item : List Byte) (seed : Word) (s : State) :
    (probeCoordinate item seed s).bitInByte = passIndex item seed s.m % 8 := tripleOf_bitInByte _

/-- Every probe's byte exists where the chunks of M fit. -/
theorem passIndex_lt_size {m : BitVec 64} {b : BitStore} (hm : m ≠ 0) (hc : chunkCount m ≤ b.maxChunks)
    (item : List Byte) (seed : Word) : passIndex item seed m / 8 < b.size := by
  have h1 := bitIndex_lt hm (hashPass seed item).h
  have h2 := le_chunkCount m
  have h3 : chunkCount m * 32768 ≤ b.maxChunks * 32768 := Nat.mul_le_mul_right _ hc
  unfold passIndex BitStore.size
  simp only [Config.chunkBytes]
  omega

/-- What one probe of INSERT does. -/
theorem bsSet_probe {item : List Byte} {seed : Word} {s : State} {b : BitStore}
    (h : bsSet s.bitStore (probeCoordinate item seed s) = some b) :
    b = s.bitStore.setByte (passIndex item seed s.m / 8)
      (s.bitStore.byteAt (passIndex item seed s.m / 8) ||| bitMask (passIndex item seed s.m % 8)) ∧
    passIndex item seed s.m / 8 < s.bitStore.size := by
  obtain ⟨h1, h2⟩ := bsSet_eq_some.1 h
  rw [probeCoordinate_globalByte] at h1 h2
  rw [probeCoordinate_bitInByte] at h2
  exact ⟨h2, h1⟩

/-- Every bit after one probe of INSERT. -/
theorem bitAt_after_probe {b : BitStore} (hb : b.wf = true) (p i : Nat) :
    (b.setByte (p / 8) (b.byteAt (p / 8) ||| bitMask (p % 8))).bitAt i = (b.bitAt i || decide (i = p)) := by
  rw [BitStore.bitAt_setByte hb, BitVec.getLsbD_or, bitMask_getLsbD (Nat.mod_lt _ (by omega))]
  by_cases h : i / 8 = p / 8
  · have h2 : (i % 8 = p % 8) ↔ (i = p) := by omega
    rw [if_pos h, ← h]
    simp only [h2, BitStore.bitAt]
  · have h3 : i ≠ p := by rintro rfl; exact h rfl
    rw [if_neg h]
    simp [h3]

/-- INSERT's loop completes where the chunks of M fit. -/
theorem insertLoop_completes (item : List Byte) (n : Nat) (seed : Word) {s : State} (hm : s.m ≠ 0)
    (hc : chunkCount s.m ≤ s.bitStore.maxChunks) : ∃ t, insertLoop item n seed s = some t := by
  induction n generalizing seed s with
  | zero => exact ⟨s, rfl⟩
  | succ n ih =>
    have hlt : (probeCoordinate item seed s).globalByte < s.bitStore.size := by
      rw [probeCoordinate_globalByte]; exact passIndex_lt_size hm hc item seed
    obtain ⟨b, hb⟩ : ∃ b, bsSet s.bitStore (probeCoordinate item seed s) = some b := ⟨_, bsSet_of_lt hlt⟩
    have hmax : b.maxChunks = s.bitStore.maxChunks := by
      rw [(bsSet_eq_some.1 hb).2, BitStore.setByte_maxChunks]
    simp only [insertLoop, hb, Option.bind_some]
    exact ih _ (by simpa using hm) (by simpa [hmax] using hc)

/-- What INSERT's loop can do: it writes the BitStore, the engine and SEED only, keeps the BitStore's shape and
canonical form, and sets exactly the bits its probes select. -/
theorem insertLoop_spec {item : List Byte} {n : Nat} {seed : Word} {s t : State}
    (h : insertLoop item n seed s = some t) :
    t = { s with bitStore := t.bitStore, he := t.he, seed := t.seed } ∧
    t.bitStore.maxChunks = s.bitStore.maxChunks ∧ t.bitStore.epoch = s.bitStore.epoch ∧
    t.bitStore.filled = s.bitStore.filled ∧
    (t.he = s.he ∨ ∃ sd, t.he = hashPass sd item) ∧
    (s.bitStore.wf = true → t.bitStore.wf = true ∧
      ∀ i, t.bitStore.bitAt i = true ↔ s.bitStore.bitAt i = true ∨
        ∃ j, j < n ∧ passIndex item (seed + BitVec.ofNat 32 j) s.m = i) := by
  induction n generalizing seed s with
  | zero =>
    simp only [insertLoop, Option.some.injEq] at h
    subst h
    refine ⟨by cases s; rfl, rfl, rfl, rfl, .inl rfl, fun hw => ⟨hw, fun i => ?_⟩⟩
    simp
  | succ n ih =>
    simp only [insertLoop] at h
    obtain ⟨b, hb, h⟩ := Option.bind_eq_some_iff.1 h
    · obtain ⟨hbeq, hlt⟩ := bsSet_probe hb
      obtain ⟨h1, h2, h3, h4, h5, h6⟩ := ih h
      simp only [State.withBitStore_bitStore, State.withBitStore_m, State.probe_m] at h2 h3 h4 h6
      refine ⟨?_, ?_, ?_, ?_, ?_, fun hw => ?_⟩
      · rw [h1]; rfl
      · rw [h2, hbeq, BitStore.setByte_maxChunks]
      · rw [h3, hbeq, BitStore.setByte_epoch]
      · rw [h4, hbeq, BitStore.setByte_filled]
      · rcases h5 with h5 | h5
        · exact .inr ⟨seed, by simpa using h5⟩
        · exact .inr h5
      · obtain ⟨h7, h8⟩ := h6 (bsSet_wf hw hb)
        refine ⟨h7, fun i => ?_⟩
        rw [h8 i, hbeq, bitAt_after_probe hw]
        simp only [Bool.or_eq_true, decide_eq_true_eq, or_assoc]
        refine or_congr Iff.rfl ⟨?_, ?_⟩
        · rintro (rfl | ⟨j, hj, rfl⟩)
          · exact ⟨0, by omega, by simp⟩
          · refine ⟨j + 1, by omega, ?_⟩
            rw [BitVec.ofNat_add, add_comm (BitVec.ofNat 32 j), ← add_assoc]
            rfl
        · rintro ⟨j, hj, rfl⟩
          cases j with
          | zero => left; simp
          | succ j =>
            refine .inr ⟨j, by omega, ?_⟩
            rw [BitVec.ofNat_add, add_comm (BitVec.ofNat 32 j), ← add_assoc]
            rfl

/-- What one probe of QUERY reads. -/
theorem bsTest_probe {item : List Byte} {seed : Word} {s : State} {r : Bool}
    (h : bsTest s.bitStore (probeCoordinate item seed s) = some r) :
    r = s.bitStore.bitAt (passIndex item seed s.m) := by
  obtain ⟨_, h2⟩ := bsTest_eq_some.1 h
  rw [h2, probeCoordinate_globalByte, probeCoordinate_bitInByte]
  rfl

/-- QUERY's loop completes where the chunks of M fit. -/
theorem queryLoop_completes (item : List Byte) (n : Nat) (seed : Word) {s : State} (hm : s.m ≠ 0)
    (hc : chunkCount s.m ≤ s.bitStore.maxChunks) : ∃ t, queryLoop item n seed s = some t := by
  induction n generalizing seed s with
  | zero => exact ⟨s, rfl⟩
  | succ n ih =>
    have hlt : (probeCoordinate item seed s).globalByte < s.bitStore.size := by
      rw [probeCoordinate_globalByte]; exact passIndex_lt_size hm hc item seed
    obtain ⟨r, hr⟩ : ∃ r, bsTest s.bitStore (probeCoordinate item seed s) = some r := ⟨_, bsTest_of_lt hlt⟩
    simp only [queryLoop, hr, Option.bind_some]
    cases r
    · exact ⟨_, rfl⟩
    · exact ih _ (by simpa using hm) (by simpa using hc)

/-- What QUERY's loop can do: it writes the engine, SEED and HIT only, and HIT stays up exactly when every probed
bit is 1. -/
theorem queryLoop_spec {item : List Byte} {n : Nat} {seed : Word} {s t : State}
    (h : queryLoop item n seed s = some t) :
    t = { s with he := t.he, seed := t.seed, hit := t.hit } ∧
    (t.he = s.he ∨ ∃ sd, t.he = hashPass sd item) ∧
    (s.hit = true → (t.hit = true ↔
      ∀ j, j < n → s.bitStore.bitAt (passIndex item (seed + BitVec.ofNat 32 j) s.m) = true)) := by
  induction n generalizing seed s with
  | zero =>
    simp only [queryLoop, Option.some.injEq] at h
    subst h
    exact ⟨by cases s; rfl, .inl rfl, fun hh => by simp [hh]⟩
  | succ n ih =>
    simp only [queryLoop] at h
    obtain ⟨bit, hb, h⟩ := Option.bind_eq_some_iff.1 h
    split at h
    · next hbt =>
      subst hbt
      have hbit := bsTest_probe hb
      obtain ⟨h1, h2, h3⟩ := ih h
      simp only [State.probe_m, State.probe_bitStore, State.probe_hit] at h3
      refine ⟨by rw [h1]; rfl, ?_, fun hh => ?_⟩
      · rcases h2 with h2 | h2
        · exact .inr ⟨seed, by simpa using h2⟩
        · exact .inr h2
      · rw [h3 hh]
        constructor
        · intro hall j hj
          cases j with
          | zero => rw [show seed + BitVec.ofNat 32 0 = seed by simp]; exact hbit.symm
          | succ j =>
            have := hall j (by omega)
            rwa [BitVec.ofNat_add, add_comm (BitVec.ofNat 32 j), ← add_assoc]
        · intro hall j hj
          have := hall (j + 1) (by omega)
          rwa [BitVec.ofNat_add, add_comm (BitVec.ofNat 32 j), ← add_assoc] at this
    · next hbt =>
      have hbt : bit = false := by simpa using hbt
      subst hbt
      have hbit := bsTest_probe hb
      simp only [Option.some.injEq] at h
      subst h
      refine ⟨by cases s; rfl, .inr ⟨seed, by simp⟩, fun _ => ?_⟩
      constructor
      · intro hf; simp at hf
      · intro hall
        have := hall 0 (by omega)
        rw [show seed + BitVec.ofNat 32 0 = seed by simp, ← hbit] at this
        cases this

end Sys2Proof.Machine
end

