-- ==== Sys2Proof/Laws/Exec.lean ====
section
/-! SUPPORT. Laws/Exec.lean: what each meaning and the step can answer, said once (inversion lemmas). -/

namespace Sys2Proof.Machine

/-- CONSTRUCT: one of three errors, or the filter. -/
theorem execConstruct_cases {k : Word} {m : BitVec 64} {s t : State} (h : execConstruct k m s = .next t) :
    (s.constructed = true ∧ t = s.raise .alreadyConstructed) ∨
    (s.constructed = false ∧ (m = 0 ∨ k = 0) ∧ t = s.raise .invalidParameters) ∨
    (s.constructed = false ∧ (m ≠ 0 ∧ k ≠ 0) ∧ s.bitStore.maxChunks < chunkCount m ∧
      t = s.raise .allocationFailure) ∨
    (s.constructed = false ∧ (m ≠ 0 ∧ k ≠ 0) ∧ chunkCount m ≤ s.bitStore.maxChunks ∧
      t = (s.construct k m).respond .ok 0 (BitVec.ofNat 64 (chunkCount m))) := by
  unfold execConstruct at h
  split at h
  · next hc => exact .inl ⟨hc, by simpa using h.symm⟩
  · next hc =>
    simp only [Bool.not_eq_true] at hc
    split at h
    · next hp => exact .inr (.inl ⟨hc, hp, by simpa using h.symm⟩)
    · next hp =>
      simp only [not_or] at hp
      split at h
      · next hx => exact .inr (.inr (.inl ⟨hc, hp, hx, by simpa using h.symm⟩))
      · next hx => exact .inr (.inr (.inr ⟨hc, hp, by omega, by simpa using h.symm⟩))

/-- INSERT: the error, or the loop's state and OK. -/
theorem execInsert_cases {item : List Byte} {s t : State} (h : execInsert item s = .next t) :
    (s.constructed = false ∧ t = s.raise .notConstructed) ∨
    (s.constructed = true ∧ ∃ u, insertLoop item s.k.toNat 0 s = some u ∧ t = u.respond .ok 0 0) := by
  unfold execInsert at h
  split at h
  · next hc =>
    split at h
    · next u hu => exact .inr ⟨hc, u, hu, by simpa using h.symm⟩
    · cases h
  · next hc => exact .inl ⟨by simpa using hc, by simpa using h.symm⟩

/-- QUERY: the error, or the loop's state and its HIT. -/
theorem execQuery_cases {item : List Byte} {s t : State} (h : execQuery item s = .next t) :
    (s.constructed = false ∧ t = s.raise .notConstructed) ∨
    (s.constructed = true ∧ ∃ u, queryLoop item s.k.toNat 0 (s.withHit true) = some u ∧
      t = u.respond .ok (bitResult u.hit) 0) := by
  unfold execQuery at h
  split at h
  · next hc =>
    split at h
    · next u hu => exact .inr ⟨hc, u, hu, by simpa using h.symm⟩
    · cases h
  · next hc => exact .inl ⟨by simpa using hc, by simpa using h.symm⟩

/-- COORD: the error, or the bit index. -/
theorem execCoord_cases {d : Word} {s t : State} (h : execCoord d s = .next t) :
    (s.constructed = false ∧ t = s.raise .notConstructed) ∨
    (s.constructed = true ∧ t = s.respond .ok 0 (bitIndex d s.m)) := by
  unfold execCoord at h
  split at h
  · next hc => exact .inr ⟨hc, by simpa using h.symm⟩
  · next hc => exact .inl ⟨by simpa using hc, by simpa using h.symm⟩

/-- HASH: always the digest. -/
theorem execHash_eq (seed : Word) (bytes : List Byte) (s : State) :
    execHash seed bytes s =
      .next ((s.respond .ok (hashPass seed bytes).h 0).withEngine (hashPass seed bytes)) := by
  unfold execHash; rfl

/-- A step: idle, a reset, a command, or an illegal transaction. -/
theorem step_cases {s t : State} (h : step s = .next t) :
    (s.port = [] ∧ t = s) ∨
    (∃ f rest, s.port = .reset f :: rest ∧ t = (s.withPort rest).takeReset) ∨
    (∃ c rest i, s.port = .command c :: rest ∧ decode c = .instr i ∧ exec i (s.withPort rest) = .next t) ∨
    (∃ c rest why, s.port = .command c :: rest ∧ decode c = .illegal why ∧
      t = (s.withPort rest).raise .illegalCommand) := by
  unfold step at h
  split at h
  · next hp => exact .inl ⟨hp, by simpa using h.symm⟩
  · next f rest hp => exact .inr (.inl ⟨f, rest, hp, by simpa using h.symm⟩)
  · next c rest hp =>
    split at h
    · next i hi => exact .inr (.inr (.inl ⟨c, rest, i, hp, hi, h⟩))
    · next why hi => exact .inr (.inr (.inr ⟨c, rest, why, hp, hi, by simpa using h.symm⟩))

/-- One step of a run, for any machine. -/
theorem core_run_succ (M : Host.Core) (n : Nat) (s t : M.State) (h : M.step s = .next t) :
    M.run (n + 1) s = M.run n t := by
  simp only [Host.Core.run, h]

/-- One step of a run of this machine: use it to peel a run, since the state type of `Sys2Proof.core` unfolds to
`State` only at default transparency, where rw does not look. -/
theorem run_succ {s t : State} (n : Nat) (h : step s = .next t) :
    Sys2Proof.core.run (n + 1) s = Sys2Proof.core.run n t := core_run_succ Sys2Proof.core n s t h

end Sys2Proof.Machine
end

