-- ==== Sys2Proof/Laws/PerInstr.lean ====
section
/-! SUPPORT. Laws/PerInstr.lean: the statements made of each command as syntax, one lemma per constructor. -/

/-- The encoding of a command is a legal transaction: R89's checks, over numbers, all pass. -/
def Sys2Proof.Laws.EncodingIsLegal.Statement (i : Sys2Proof.Instr) : Prop :=
  (Sys2Proof.encode i).wellFormed = true

namespace Sys2Proof.Laws

/-- A header's fields on numbers. -/
theorem mkHeader_toNat (op : BitVec 8) (a : Word) (b : BitVec 64) :
    (mkHeader op a b).toNat = op.toNat * 2 ^ 120 + a.toNat * 2 ^ 64 + b.toNat := by
  have ha := a.isLt
  have hb := b.isLt
  unfold mkHeader
  rw [BitVec.toNat_append, BitVec.toNat_append, BitVec.toNat_append,
    ← Nat.shiftLeft_add_eq_or_of_lt (by simpa using b.isLt), ← Nat.shiftLeft_add_eq_or_of_lt (by simpa using a.isLt),
    ← Nat.shiftLeft_add_eq_or_of_lt (by simp)]
  simp only [Nat.shiftLeft_eq, show (0 : BitVec 24).toNat = 0 from rfl]
  ring

theorem mkHeader_fields (op : BitVec 8) (a : Word) (b : BitVec 64) :
    fieldOf (mkHeader op a b) 127 120 = op.toNat ∧ fieldOf (mkHeader op a b) 119 96 = 0 ∧
    fieldOf (mkHeader op a b) 95 64 = a.toNat ∧ fieldOf (mkHeader op a b) 63 0 = b.toNat := by
  have ho := op.isLt
  have ha := a.isLt
  have hb := b.isLt
  simp only [fieldOf, mkHeader_toNat]
  refine ⟨?_, ?_, ?_, ?_⟩ <;> omega

theorem EncodingIsLegal.construct (k : Word) (m : BitVec 64) :
    EncodingIsLegal.Statement (.construct k m) := by
  obtain ⟨h1, h2, h3, h4⟩ := mkHeader_fields 1 k m
  simp only [EncodingIsLegal.Statement, encode, Command.wellFormed, Command.opIsAssigned, Command.reservedIsZero,
    Command.unusedOperandsAreZero, Command.payloadIsAllowed, h1, h2]
  rfl

theorem EncodingIsLegal.insert (item : List Byte) : EncodingIsLegal.Statement (.insert item) := by
  obtain ⟨h1, h2, h3, h4⟩ := mkHeader_fields 2 0 0
  simp only [EncodingIsLegal.Statement, encode, Command.wellFormed, Command.opIsAssigned, Command.reservedIsZero,
    Command.unusedOperandsAreZero, Command.payloadIsAllowed, h1, h2, h3, h4]
  rfl

theorem EncodingIsLegal.query (item : List Byte) : EncodingIsLegal.Statement (.query item) := by
  obtain ⟨h1, h2, h3, h4⟩ := mkHeader_fields 3 0 0
  simp only [EncodingIsLegal.Statement, encode, Command.wellFormed, Command.opIsAssigned, Command.reservedIsZero,
    Command.unusedOperandsAreZero, Command.payloadIsAllowed, h1, h2, h3, h4]
  rfl

theorem EncodingIsLegal.hash (seed : Word) (bytes : List Byte) : EncodingIsLegal.Statement (.hash seed bytes) := by
  obtain ⟨h1, h2, h3, h4⟩ := mkHeader_fields 4 seed 0
  simp only [EncodingIsLegal.Statement, encode, Command.wellFormed, Command.opIsAssigned, Command.reservedIsZero,
    Command.unusedOperandsAreZero, Command.payloadIsAllowed, h1, h2, h4]
  rfl

theorem EncodingIsLegal.coord (digest : Word) : EncodingIsLegal.Statement (.coord digest) := by
  obtain ⟨h1, h2, h3, h4⟩ := mkHeader_fields 5 digest 0
  simp only [EncodingIsLegal.Statement, encode, Command.wellFormed, Command.opIsAssigned, Command.reservedIsZero,
    Command.unusedOperandsAreZero, Command.payloadIsAllowed, h1, h2, h4]
  rfl

end Sys2Proof.Laws
end

