-- ==== Sys2Proof/Tests/Slice0.lean ====
section
/-! SUPPORT. Tests/Slice0.lean: the model's own tests. Expected values are those of 95_test_vectors.md (V<n>, P<n>)
or of the rules' own examples. The theorems named witness_… each show a state and operands that meet all the hypotheses
of one statement, clause by clause. -/

namespace Sys2Proof.Tests

open Sys2Proof Sys2Proof.Machine

/-! ## Helpers -/

/-- A constructed block with four chunks of capacity, `nc` of them in use, and the listed bytes. -/
def filter (k : Word) (m : BitVec 64) (nc : Nat) (cells : List Host.Cell) : State :=
  { State.resetWith 4 with
    m := m, k := k, nchunks := BitVec.ofNat 64 nc, constructed := true
    bitStore := { maxChunks := 4, epoch := 0, filled := nc, cells := cells } }

/-- A state with commands waiting. -/
def waiting (port : List HostEvent) (s : State) : State := { s with port := port }

/-- The outcome is a next state with a property. -/
def after (p : State → Bool) : Host.Outcome State Fault Refusal → Bool
  | .next t => p t
  | .fault _ => false
  | .refused _ => false

theorem of_after {p : State → Bool} {o : Host.Outcome State Fault Refusal} (h : after p o = true) :
    ∃ t, o = .next t ∧ p t = true := by
  cases o with
  | next t => exact ⟨t, rfl, h⟩
  | fault r => cases h
  | refused r => cases h

/-- Any next state. -/
def anyState (_ : State) : Bool := true

theorem next_of {o : Host.Outcome State Fault Refusal} (h : after anyState o = true) : ∃ t, o = .next t := by
  obtain ⟨t, ht, -⟩ := of_after h
  exact ⟨t, ht⟩

/-! ## Decoding: a word of each command, written from the rows of R82 and listed in V19 -/

theorem test_decode_construct :
    decode ⟨0x010000000000000300000000002dc6c0, []⟩ = .instr (.construct 3 3000000) := by decide

theorem test_decode_insert :
    decode ⟨0x02000000000000000000000000000000, [0x70, 0x61, 0x73, 0x73, 0x77, 0x6f, 0x72, 0x64]⟩ =
      .instr (.insert [0x70, 0x61, 0x73, 0x73, 0x77, 0x6f, 0x72, 0x64]) := by decide

theorem test_decode_query : decode ⟨0x03000000000000000000000000000000, [0x61]⟩ = .instr (.query [0x61]) := by decide

theorem test_decode_hash : decode ⟨0x04000000000000010000000000000000, []⟩ = .instr (.hash 1 []) := by decide

theorem test_decode_coord : decode ⟨0x05000000ffffffff0000000000000000, []⟩ = .instr (.coord 0xffffffff) := by decide

/-- The two sides of the reserved operation codes (V20). -/
theorem test_decode_reserved :
    decode ⟨0, []⟩ = .illegal .reservedOp ∧ decode ⟨0x06000000000000000000000000000000, []⟩ = .illegal .reservedOp ∧
    decode ⟨0x04800000000000000000000000000000, [0x61]⟩ = .illegal .reservedBits := by decide

theorem test_encode :
    encode (.construct 7 9585058378) = ⟨0x0100000000000007000000023b50624a, []⟩ ∧
    encode (.hash 0xffffffff [0x61]) = ⟨0x04000000ffffffff0000000000000000, [0x61]⟩ ∧
    encode (.coord 0x3c2569b2) = ⟨0x050000003c2569b20000000000000000, []⟩ := by decide

theorem test_table_words :
    decodeTableWord 128 0x01000000000000070000000000002572 = some (.construct 7 9586) ∧
    decodeTableWord 128 0x03000000000000000000000000000000 = some (.query []) ∧
    decodeTableWord 128 0x00000000000000000000000000000000 = none := by decide

/-! ## WellFormed: for each check of R89 an ill-formed transaction, which the check refuses (V20) -/

theorem test_wellFormed_opIsAssigned :
    (Command.mk 0x06000000000000000000000000000000 []).opIsAssigned = false ∧
    (Command.mk 0 []).opIsAssigned = false := by decide

theorem test_wellFormed_reservedIsZero :
    (Command.mk 0x01000001000000070000000000002572 []).reservedIsZero = false := by decide

theorem test_wellFormed_unusedOperandsAreZero :
    (Command.mk 0x02000000000000010000000000000000 [0x61]).unusedOperandsAreZero = false ∧
    (Command.mk 0x03000000000000000000000000000001 [0x61]).unusedOperandsAreZero = false ∧
    (Command.mk 0x04000000000000000000000000000001 [0x61]).unusedOperandsAreZero = false ∧
    (Command.mk 0x05000000000000000000000000000001 []).unusedOperandsAreZero = false := by decide

theorem test_wellFormed_payloadIsAllowed :
    (Command.mk 0x01000000000000070000000000002572 [0]).payloadIsAllowed = false ∧
    (Command.mk 0x050000003c2569b20000000000000000 [0x61]).payloadIsAllowed = false := by decide

theorem test_wellFormed_legal :
    (Command.mk 0x01000000000000070000000000000000 []).wellFormed = true ∧
    (Command.mk 0x02000000000000000000000000000000 []).wellFormed = true := by decide

/-! ## The commands, one step each -/

/-- P1, command 1. -/
theorem test_construct :
    after (fun t => t.m == 9586 && t.k == 7 && t.nchunks == 1 && t.constructed && t.bitStore.filled == 1 &&
      t.responses == [0x00000000000000000000000000000001])
      (exec (.construct 7 9586) (State.resetWith 4)) = true := by decide

/-- V21: operands before capacity, and a filter of exactly the capacity fits. -/
theorem test_construct_limits :
    after (fun t => t.responses == [0x01000000000000000000000000000000] && !t.constructed)
      (exec (.construct 0 262145) (State.resetWith 1)) = true ∧
    after (fun t => t.responses == [0x02000000000000000000000000000000] && !t.constructed)
      (exec (.construct 1 262145) (State.resetWith 1)) = true ∧
    after (fun t => t.responses == [1] && t.constructed)
      (exec (.construct 1 262144) (State.resetWith 1)) = true := by decide

/-- P2, command 2: bits 2 and 3 of byte 0. -/
theorem test_insert :
    after (fun t => t.bitStore.cells == [(0, 0x0c)] && t.responses == [0])
      (exec (.insert [0x61]) (filter 2 10 1 [])) = true := by decide

/-- P4, command 2: three bytes in three chunks, the last listed first. -/
theorem test_insert_chunks :
    after (fun t => t.bitStore.cells == [(20871, 0x20), (222683, 0x02), (251766, 0x10)])
      (exec (.insert [0x70, 0x61, 0x73, 0x73, 0x77, 0x6f, 0x72, 0x64])
        { filter 3 3000000 12 [] with
          bitStore := { maxChunks := 12, epoch := 0, filled := 12, cells := [] } }) = true := by decide

/-- P2, commands 5 and 15: found, and a false positive. -/
theorem test_query_found :
    after (fun t => t.responses == [0x00000000000000010000000000000000] && t.bitStore.cells == [(0, 0x3c)])
      (exec (.query [0x61]) (filter 2 10 1 [(0, 0x3c)])) = true ∧
    after (fun t => t.responses == [0x00000000000000010000000000000000])
      (exec (.query [0x6d]) (filter 2 10 1 [(0, 0x3c)])) = true := by decide

/-- P2, commands 8 and 10: not found at the first probe, and at the second. -/
theorem test_query_not_found :
    after (fun t => t.responses == [0] && !t.hit && t.seed == 0)
      (exec (.query [0x63]) (filter 2 10 1 [(0, 0x3c)])) = true ∧
    after (fun t => t.responses == [0] && !t.hit && t.seed == 1)
      (exec (.query [0x65]) (filter 2 10 1 [(0, 0x3c)])) = true := by decide

/-- V12, row `"abcde"`, on a block not constructed. -/
theorem test_hash :
    after (fun t => t.responses == [0x000000008e51a7890000000000000000] && !t.constructed)
      (exec (.hash 0 [0x61, 0x62, 0x63, 0x64, 0x65]) State.reset) = true := by decide

/-- V13: the registers before HFIN. -/
theorem test_hash_registers :
    absorb 0 [0x61, 0x62, 0x63, 0x64, 0x65] = { len := 5, cnt := 1, acc := 0x65, h := 0x5afb50f0 } := by decide

/-- V15 and V16: the top digest, for an M at and above `2^32`. -/
theorem test_coord :
    after (fun t => t.responses == [0x0000000000000000000000023b506247])
      (exec (.coord 0xffffffff) (filter 7 9585058378 36565 [])) = true ∧
    coordinate 0xffffffff 262145 = { chunk := 1, byteInChunk := 0, bitInByte := 0 } := by decide

/-- V14: no floating-point rounding. -/
theorem test_coord_exact : bitIndex 0x5dc57d53 9585058378 = 3510956095 := by decide

/-- V18: the masks, least significant bit first. -/
theorem test_bit_order :
    (bsSet { maxChunks := 1, epoch := 0, filled := 1, cells := [] }
      { chunk := 0, byteInChunk := 281, bitInByte := 4 }).map BitStore.cells = some [(281, 0x10)] ∧
    bsTest { maxChunks := 1, epoch := 0, filled := 1, cells := [(281, 0x80)] }
      { chunk := 0, byteInChunk := 281, bitInByte := 7 } = some true := by decide

/-- P3, command 11: a reserved operation code. -/
theorem test_step_illegal :
    after (fun t => t.responses == [0x03000000000000000000000000000000] && t.port == [] && t.m == 524288)
      (step (waiting [.command ⟨0x07000000000000000000000000000000, []⟩] (filter 3 524288 2 []))) = true := by decide

/-- R240: the filter is gone after reset, and nothing is answered. -/
theorem test_step_reset :
    after (fun t => !t.constructed && t.m == 0 && t.k == 0 && t.nchunks == 0 && t.responses == [] && t.port == [])
      (step (waiting [.reset (some ⟨0x02000000000000000000000000000000, [0x61]⟩)] (filter 2 10 1 [(0, 0x3c)]))) =
        true := by decide

/-! ## The host's side: R92 and R158's examples, V19 -/

theorem test_utf8 : utf8Bytes ['é', '€'] = [0xc3, 0xa9, 0xe2, 0x82, 0xac] := by decide

theorem test_pseudo_new :
    Pseudo.expand (.new (some (9586, 7))) = .send (.construct 7 9586) ∧
    Pseudo.expand (.new (some (2 ^ 64, 7))) = .notEncodable ∧
    Pseudo.expand (.new none) = .report .invalidParameters := by decide

theorem test_listing_commands :
    commandListing (.construct 7 9586) = "CONSTRUCT m=9586, k=7" ∧
    commandListing (.coord 0x3c2569b2) = "COORD 0x3c2569b2" := by decide

/-- R92: `"abc"` and `x"616263"` are one item. -/
theorem test_listing_items :
    (asciiItem ['a', 'b', 'c']).map itemListing = some "x\"616263\"" ∧ asciiItem ['é'] = none ∧
    itemListing [] = "x\"\"" := by decide

theorem test_listing_responses :
    responseListing (.coord 0xffffffff) 0x0000000000000000000000023b506247 =
      "-> OK bit_index=9585058375 (36564,3144,7)" ∧
    responseListing (.insert []) 0x04000000000000000000000000000000 = "-> NotConstructed" := by decide

/-! ## Witnesses: states -/

/-- The degenerate filter of P5 part B, after INSERT: M = 1, K = 1, bit 0 set. -/
def oneBit : State := filter 1 1 1 [(0, 1)]

theorem filter_empty_inv : (filter 7 9586 1 []).Inv where
  capacity := by decide
  canonical := by decide
  zeroFilled := by decide
  confined := by intro c hc; cases hc
  counting := by decide
  unbuilt := by decide
  built := by decide
  padding := by
    intro _ i _ hi
    have h : i / 8 < 1 * 32768 := by
      have : i < 1 * 262144 := hi
      omega
    show ((if i / 8 < 1 * 32768 then 0 else Config.unspecifiedByte 0 (i / 8)).getLsbD (i % 8)) = false
    rw [if_pos h]
    simp

theorem oneBit_inv : oneBit.Inv where
  capacity := by decide
  canonical := by decide
  zeroFilled := by decide
  confined := by
    intro c hc
    simp only [oneBit, filter, List.mem_singleton] at hc
    subst hc
    decide
  counting := by decide
  unbuilt := by decide
  built := by decide
  padding := by
    intro _ i hlo hi
    replace hlo : 1 ≤ i := hlo
    replace hi : i < 1 * 262144 := hi
    by_cases h0 : i / 8 = 0
    · have key : ∀ j, j < 8 → 1 ≤ j → oneBit.bitStore.bitAt j = false := by decide
      exact key i (by omega) hlo
    · have h : i / 8 < 1 * 32768 := by omega
      have hl : oneBit.bitStore.byteAt (i / 8) = 0 := by
        unfold BitStore.byteAt oneBit filter
        simp only [listedByte, if_neg (fun h => h0 (Eq.symm h) : ¬ 0 = i / 8), BitStore.unlisted,
          Config.chunkBytes, if_pos h]
      unfold BitStore.bitAt
      rw [hl]
      simp

/-- The invariant's clauses are met by the state after reset, a filter with nothing in it, and one with a bit set. -/
theorem witness_Inv : State.reset.Inv ∧ (filter 7 9586 1 []).Inv ∧ oneBit.Inv := by
  refine ⟨?_, filter_empty_inv, oneBit_inv⟩
  exact {
    capacity := by decide
    canonical := by decide
    zeroFilled := by decide
    confined := by intro c hc; cases hc
    counting := by decide
    unbuilt := by decide
    built := by decide
    padding := by decide }

theorem witness_Usable : (filter 2 10 1 [(0, 0x0c)]).Usable ∧ (filter 2 10 1 [(0, 0x0c)]).bitStore.wf = true ∧
    (filter 2 10 4 []).Usable := by
  refine ⟨⟨?_, ?_, ?_⟩, ?_, ⟨?_, ?_, ?_⟩⟩ <;> decide

/-! ## Witnesses: encoding -/

theorem witness_EncodeOfDecode :
    decode ⟨0x03000000000000000000000000000000, [0x61]⟩ = .instr (.query [0x61]) := by decide

/-- One transaction per clause (a) to (d), first on a port, and one that none of them holds of. -/
theorem witness_IllegalTransactions :
    (5 < fieldOf 0x06000000000000000000000000000000 127 120) ∧
    (fieldOf 0 127 120 < 1) ∧
    (fieldOf 0x01000001000000070000000000002572 119 96 ≠ 0) ∧
    (fieldOf 0x02000000000000010000000000000000 127 120 = 2 ∧
      fieldOf 0x02000000000000010000000000000000 95 64 ≠ 0) ∧
    (fieldOf 0x03000000000000000000000000000001 127 120 = 3 ∧
      fieldOf 0x03000000000000000000000000000001 63 0 ≠ 0) ∧
    (fieldOf 0x04000000000000000000000000000001 127 120 = 4 ∧
      fieldOf 0x04000000000000000000000000000001 63 0 ≠ 0) ∧
    (fieldOf 0x050000003c2569b20000000000000000 127 120 = 5 ∧ [(0x61 : Byte)] ≠ []) ∧
    (waiting [.command ⟨0, []⟩] State.reset).port = .command ⟨0, []⟩ :: [] ∧
    (Command.mk 0x05000000ffffffff0000000000000000 []).wellFormed = true := by decide

theorem witness_MatchAndMask :
    decode ⟨0x04000000000000070000000000000000, [1]⟩ = .instr (.hash 7 [1]) ∧
    (0x04000000000000070000000000000000 : Wide) &&& rowMask (.hash 0 []) = rowMatch (.hash 0 []) ∧
    (0x04000000000000070000000000000000 : Wide) &&& rowMask (.hash 1 [1]) = rowMatch (.hash 1 [1]) := by decide

/-! ## Witnesses: the step -/

/-- A command first on the port, decoded, with a next state: StepRunsTheDecodedCommand, ResponseFormat. -/
theorem witness_StepRuns :
    (waiting [.command ⟨0x05000000000000000000000000000000, []⟩] State.reset).port =
      .command ⟨0x05000000000000000000000000000000, []⟩ :: [] ∧
    decode ⟨0x05000000000000000000000000000000, []⟩ = .instr (.coord 0) ∧
    ∃ t, step (waiting [.command ⟨0x05000000000000000000000000000000, []⟩] State.reset) = .next t := by
  exact ⟨by decide, by decide, next_of (by decide)⟩

theorem witness_Idle : State.reset.port = [] ∧ oneBit.port = [] := by decide

theorem witness_ResetDropsTheFilter :
    (waiting [.reset none] oneBit).port = .reset none :: [] ∧
    (waiting [.reset (some ⟨0x02000000000000000000000000000000, [0x61]⟩)] oneBit).port =
      .reset (some ⟨0x02000000000000000000000000000000, [0x61]⟩) :: [] := by decide

theorem waiting_inv {s : State} (h : s.Inv) (port : List HostEvent) : (waiting port s).Inv :=
  ⟨h.capacity, h.canonical, h.zeroFilled, h.confined, h.counting, h.unbuilt, h.built, h.padding⟩

theorem witness_EveryCommandEnds :
    (waiting [.command ⟨0x03000000000000000000000000000000, [0x61]⟩] oneBit).Inv ∧
    (waiting [.command ⟨0x03000000000000000000000000000000, [0x61]⟩] oneBit).port =
      .command ⟨0x03000000000000000000000000000000, [0x61]⟩ :: [] :=
  ⟨waiting_inv oneBit_inv _, by decide⟩

/-- R216's order: a transaction for each rank, and one with no error. -/
theorem witness_ErrorPriority :
    (Command.mk 0x01000000000000070000000000000000 [0]).wellFormed = false ∧
    (encode (.construct 0 0)).wellFormed = true ∧ (filter 2 10 1 []).constructed = true ∧
    (State.resetWith 1).constructed = false ∧ (State.resetWith 1).bitStore.maxChunks < chunkCount 262145 ∧
    ¬ (State.resetWith 1).bitStore.maxChunks < chunkCount 262144 ∧
    (encode (.insert [0x61])).wellFormed = true ∧ (encode (.query [])).wellFormed = true ∧
    (encode (.coord 0)).wellFormed = true ∧
    (waiting [.command (encode (.coord 0))] (State.resetWith 1)).port = .command (encode (.coord 0)) :: [] := by
  decide

/-! ## Witnesses: the hash engine and the addressing -/

/-- The shift amounts at the ends of their ranges. -/
theorem witness_PrimitivesOnNaturals :
    (1 ≤ 1 ∧ 1 ≤ 31 ∧ 31 ≤ 31) ∧ rotl32 0x80000001 1 = 3 ∧ rotl32 0x80000001 31 = 0xc0000000 := by decide

/-- Both branches of HBYTE. -/
theorem witness_MicroOperations :
    (HashEngine.mk 3 3 0x616263 0).cnt.toNat = 3 ∧ (HashEngine.mk 0 0 0 0).cnt.toNat ≠ 3 := by decide

theorem witness_BlocksAreMixedInOrder : ([] : List Byte).length < 4 ∧ [(1 : Byte), 2, 3].length < 4 := by decide

theorem witness_Coordinates : (1 : BitVec 64) ≠ 0 ∧ (0xffffffffffffffff : BitVec 64) ≠ 0 := by decide

/-- M below, at and above `2^32`. -/
theorem witness_CornerDigests :
    (1 : BitVec 64).toNat ≤ 2 ^ 32 ∧ (0x100000000 : BitVec 64).toNat = 2 ^ 32 ∧
    2 ^ 32 < (0x100000001 : BitVec 64).toNat := by decide

theorem witness_ShapeOfTheScalingMap :
    (2 : Word).toNat ≤ (2 : Word).toNat ∧ 9 < (10 : BitVec 64).toNat ∧
    bitIndex 5 0x100000001 = bitIndex 5 0x100000001 := by decide

theorem witness_TriplesAreSlices : tripleOf 262151 = { chunk := 1, byteInChunk := 0, bitInByte := 7 } := by decide

/-! ## Witnesses: the BitStore -/

theorem witness_ReadsReturnTheLatestWrite :
    oneBit.bitStore.wf = true ∧ 131071 < oneBit.bitStore.maxChunks * 32768 ∧
    ¬ 131072 < oneBit.bitStore.maxChunks * 32768 ∧ (0 : Nat) ≠ 131071 := by decide

theorem witness_AllocationZeroFills :
    oneBit.bitStore.wf = true ∧ 4 ≤ oneBit.bitStore.maxChunks ∧ 131071 < 4 * 32768 ∧ 4 * 32768 ≤ 131072 := by decide

theorem witness_SetBit_TestBit :
    oneBit.bitStore.wf = true ∧ 3 < oneBit.bitStore.maxChunks ∧ 32767 < 32768 ∧ 7 < 8 := by decide

/-! ## Witnesses: the filter store -/

/-- CONSTRUCT's four outcomes. -/
theorem witness_ConstructBuildsTheFilter :
    oneBit.constructed = true ∧ (State.resetWith 1).constructed = false ∧ ((0 : BitVec 64) = 0 ∨ (1 : Word) = 0) ∧
    ¬ ((262144 : BitVec 64) = 0 ∨ (1 : Word) = 0) ∧
    (State.resetWith 1).bitStore.maxChunks < ((262145 : BitVec 64).toNat ⌈/⌉ 8) ⌈/⌉ 32768 ∧
    ¬ (State.resetWith 1).bitStore.maxChunks < ((262144 : BitVec 64).toNat ⌈/⌉ 8) ⌈/⌉ 32768 := by decide

theorem witness_AllocationFails :
    (State.resetWith 1).constructed = false ∧ (262145 : BitVec 64) ≠ 0 ∧ (1 : Word) ≠ 0 ∧
    (State.resetWith 1).bitStore.maxChunks < ((262145 : BitVec 64).toNat ⌈/⌉ 8) ⌈/⌉ 32768 ∧
    (262144 : BitVec 64) ≠ 0 ∧
    ((262144 : BitVec 64).toNat ⌈/⌉ 8) ⌈/⌉ 32768 ≤ (State.resetWith 1).bitStore.maxChunks := by decide

/-- A probed bit (P2: `"a"` probes bits 2 and 3), and a byte with none. -/
theorem witness_Probed :
    Probed [0x61] 2 10 2 ∧ Probed [0x61] 2 10 3 ∧ ∀ i, Probed [0x61] 2 10 i → i / 8 ≠ 1 := by
  refine ⟨⟨0, by decide, by decide⟩, ⟨1, by decide, by decide⟩, ?_⟩
  rintro i ⟨n, hn, rfl⟩
  have hn : n < 2 := hn
  interval_cases n <;> decide

theorem witness_Insert_Query :
    State.reset.constructed = false ∧ (filter 2 10 1 [(0, 0x0c)]).constructed = true := by decide

theorem witness_QueryIsReadOnly :
    ∃ t, exec (.query [0x61]) (filter 2 10 1 [(0, 0x0c)]) = .next t := next_of (by decide)

theorem witness_FreshFilter :
    State.reset.constructed = false ∧ (10 : BitVec 64) ≠ 0 ∧ (2 : Word) ≠ 0 ∧
    chunkCount 10 ≤ State.reset.bitStore.maxChunks := by decide

/-- INSERT first, then a legal and an illegal transaction, and no reset. -/
theorem witness_NoFalseNegatives :
    let rest := [HostEvent.command ⟨0x02000000000000000000000000000000, [0x62]⟩, .command ⟨0, []⟩]
    let s := waiting (.command (encode (.insert [0x61])) :: rest) (filter 7 9586 1 [])
    s.Inv ∧ s.constructed = true ∧ s.port = .command (encode (.insert [0x61])) :: rest ∧
      ∀ e ∈ rest.take 2, e.isCommand = true :=
  ⟨waiting_inv filter_empty_inv _, by decide, by decide, by decide⟩

/-- P5 part B: once a bit is set, the one-bit filter answers 1 to any item. -/
theorem witness_TrueAnswersPersist :
    oneBit.Inv ∧ oneBit.constructed = true ∧
    ∃ u, exec (.query [0x7a, 0x7a, 0x7a]) oneBit = .next u ∧
      u.responses = oneBit.responses ++ [responseWord .ok 1 0] := by
  refine ⟨oneBit_inv, by decide, ?_⟩
  obtain ⟨t, ht, hp⟩ := of_after
    (p := fun t => decide (t.responses = oneBit.responses ++ [responseWord .ok 1 0]))
    (o := exec (.query [0x7a, 0x7a, 0x7a]) oneBit) (by decide)
  exact ⟨t, ht, of_decide_eq_true hp⟩

theorem witness_InsertOrder :
    (filter 7 9586 1 []).Inv ∧ (filter 7 9586 1 []).constructed = true ∧
    ∀ x : List Byte, x ∈ [[0x61], [0x62]] ↔ x ∈ [[0x62], [0x61], [0x61]] := by
  refine ⟨filter_empty_inv, by decide, fun x => ?_⟩
  simp only [List.mem_cons, List.not_mem_nil, or_false, or_self]
  exact or_comm

/-- SetBitsStaySet, EveryStepKeepsCanonicalMemory, ShapeIsImmutable, WhichBytesACommandWrites. -/
theorem witness_ExecFromFilter :
    oneBit.constructed = true ∧ oneBit.bitStore.wf = true ∧ oneBit.bitStore.bitAt 0 = true ∧
    (∃ t, exec (.insert [0x61]) oneBit = .next t) ∧ (∃ t, exec (.query []) oneBit = .next t) ∧
    (∃ t, exec (.construct 1 1) oneBit = .next t) ∧ (∃ t, exec (.coord 0) oneBit = .next t) ∧
    ∃ t, exec (.hash 0 []) oneBit = .next t :=
  ⟨by decide, by decide, by decide, next_of (by decide), next_of (by decide), next_of (by decide),
    next_of (by decide), next_of (by decide)⟩

/-- A byte no probe of the item selects, and a byte above the chunks CONSTRUCT allocates. -/
theorem witness_WhichBytes :
    chunkCount 1 * 32768 ≤ 32768 ∧ ∀ n, Probed [0x61] oneBit.k oneBit.m n → n / 8 ≠ 5 := by
  refine ⟨by decide, ?_⟩
  rintro i ⟨n, hn, rfl⟩
  have hn : n < 1 := hn
  interval_cases n
  decide

/-! ## Witnesses: errors and whole-machine rules -/

/-- A command answered with an error: INSERT on a block not constructed. -/
theorem witness_ErrorsLeaveNoTrace :
    ∃ t, step (waiting [.command (encode (.insert [0x61]))] State.reset) = .next t ∧
      t.responses = State.reset.responses ++ [0x04000000000000000000000000000000] ∧
      responseStatus 0x04000000000000000000000000000000 ≠ 0 := by
  obtain ⟨t, ht, hp⟩ := of_after
    (p := fun t => decide (t.responses = State.reset.responses ++ [0x04000000000000000000000000000000]))
    (o := step (waiting [.command (encode (.insert [0x61]))] State.reset)) (by decide)
  exact ⟨t, ht, of_decide_eq_true hp, by decide⟩

theorem witness_CommandsThatCannotFail :
    oneBit.Inv ∧ oneBit.constructed = true ∧
    Instr.coord 0xffffffff ∈ [Instr.insert [], .query [], .coord 0xffffffff] :=
  ⟨oneBit_inv, by decide, by decide⟩

/-- NoStepFaults, EveryStepKeepsTheInvariant, EveryStepKeepsCanonicalMemory, ShapeIsImmutable: a step that changes the
BitStore, from a state with the invariant. -/
theorem witness_Steps :
    (waiting [.command ⟨0x02000000000000000000000000000000, [0x61]⟩] (filter 7 9586 1 [])).Inv ∧
    ∃ t, step (waiting [.command ⟨0x02000000000000000000000000000000, [0x61]⟩] (filter 7 9586 1 [])) = .next t :=
  ⟨waiting_inv filter_empty_inv _, next_of (by decide)⟩

theorem witness_ResetMeetsTheInvariant : 1 ≤ 1 ∧ (State.resetWith 1).bitStore.maxChunks = 1 := by decide

/-- Two states that differ in every working register. -/
theorem witness_WorkingRegisters :
    let s : State := { oneBit with
      he := { len := 1, cnt := 1, acc := 1, h := 1 }, seed := 1, hit := true }
    s ≠ oneBit ∧ s.forgetWorking = oneBit.forgetWorking := by decide

theorem witness_UnspecifiedBytes :
    (waiting [.command ⟨0x02000000000000000000000000000000, [0x61]⟩] oneBit).Inv ∧
    ∀ f rest, (waiting [.command ⟨0x02000000000000000000000000000000, [0x61]⟩] oneBit).port ≠ .reset f :: rest := by
  refine ⟨waiting_inv oneBit_inv _, fun f rest h => ?_⟩
  simp [waiting] at h

/-! ## Witnesses: the host's side -/

theorem witness_SizedBitArray : (1 : ℤ) ≤ 1 ∧ (0 : ℝ) < 1 / 2 ∧ (1 / 2 : ℝ) < 1 := by norm_num

/-- V22: `Size(1, 0.5) = (2, 1)`, whose CONSTRUCT a block after reset has room for. -/
theorem witness_NewConstructs :
    IsSize 1 (1 / 2) (some (2, 1)) ∧ State.reset.constructed = false ∧
    ((2 : ℤ).toNat ⌈/⌉ 262144) ≤ State.reset.bitStore.maxChunks := by
  have h1 := Real.log_two_gt_d9
  have h2 := Real.log_two_lt_d9
  have hp : Real.log (1 / 2) = -Real.log 2 := by rw [one_div, Real.log_inv]
  refine ⟨⟨by norm_num, by norm_num, by norm_num, ?_, ?_, by norm_num, by norm_num⟩, by decide, by decide⟩
  · unfold IsBitArraySize
    rw [hp, eq_comm, Int.ceil_eq_iff]
    have hpos : 0 < Real.log 2 ^ 2 := by positivity
    constructor
    · rw [lt_div_iff₀ hpos]; push_cast; nlinarith
    · rw [div_le_iff₀ hpos]; push_cast; nlinarith
  · unfold IsProbeCount
    rw [eq_comm, Int.floor_eq_iff]
    push_cast
    constructor <;> linarith

/-- `Size(2, 0.9)`: `m = 1` and `k = 0`, so it raises InvalidParameters for an `n` and a `p` that are valid. -/
theorem witness_SizeRaises : (0 : ℤ) < 2 ∧ (0 : ℝ) < 9 / 10 ∧ (9 / 10 : ℝ) < 1 ∧ IsSize 2 (9 / 10) none := by
  have h1 := Real.log_two_gt_d9
  have h2 := Real.log_two_lt_d9
  have hneg : Real.log (9 / 10) < 0 := Real.log_neg (by norm_num) (by norm_num)
  have hlow : -(1 / 9) ≤ Real.log (9 / 10) := by
    have h := Real.log_le_sub_one_of_pos (show (0 : ℝ) < 10 / 9 by norm_num)
    have he : Real.log (9 / 10) = -Real.log (10 / 9) := by rw [← Real.log_inv]; norm_num
    rw [he]
    linarith
  refine ⟨by norm_num, by norm_num, by norm_num, .inr (.inr (.inr ⟨1, 0, ?_, ?_, .inr (le_refl _)⟩))⟩
  · unfold IsBitArraySize
    rw [eq_comm, Int.ceil_eq_iff]
    have hpos : 0 < Real.log 2 ^ 2 := by positivity
    constructor
    · rw [lt_div_iff₀ hpos]; push_cast; nlinarith
    · rw [div_le_iff₀ hpos]; push_cast; nlinarith
  · unfold IsProbeCount
    rw [eq_comm, Int.floor_eq_iff]
    push_cast
    constructor <;> linarith

end Sys2Proof.Tests
end

section
/-! PROOFS. The 32-bit primitives of R14 on numbers. -/

namespace Sys2Proof.Machine

/-- A word shifted left drops its top `r` bits. -/
theorem mul_two_pow_mod_word (n : Nat) {r : Nat} (hr : r ≤ 32) :
    n * 2 ^ r % 2 ^ 32 = n % 2 ^ (32 - r) * 2 ^ r := by
  rw [← Nat.mul_mod_mul_right, ← pow_add, Nat.sub_add_cancel hr]

theorem shr32_toNat (a : Word) (r : Nat) : (shr32 a r).toNat = a.toNat / 2 ^ r := by
  rw [shr32, BitVec.toNat_ushiftRight, Nat.shiftRight_eq_div_pow]

/-- R14's sum form of the rotation: the bits shifted in from the top lie below `2^r`, where the left shift left
zeros, so or-ing the two parts adds them. -/
theorem rotl32_toNat (a : Word) {r : Nat} (hr : r ≤ 32) :
    (rotl32 a r).toNat = a.toNat * 2 ^ r % 2 ^ 32 + a.toNat / 2 ^ (32 - r) := by
  have hlow : a.toNat / 2 ^ (32 - r) < 2 ^ r := by
    rw [Nat.div_lt_iff_lt_mul (by positivity), ← pow_add, Nat.add_sub_cancel' hr]
    exact a.isLt
  rw [rotl32, BitVec.toNat_or, BitVec.toNat_shiftLeft, BitVec.toNat_ushiftRight, Nat.shiftLeft_eq,
    Nat.shiftRight_eq_div_pow, mul_two_pow_mod_word _ hr, mul_comm (_ % _), Nat.two_pow_add_eq_or_of_lt hlow]

/-- Settles O11: each primitive is the operation on bit vectors of the same name, read as a number. -/
theorem primitivesOnNaturals : Obligations.PrimitivesOnNaturals := fun a b =>
  ⟨BitVec.toNat_add a b, BitVec.toNat_mul a b, fun _ => BitVec.getLsbD_xor, fun r _ => shr32_toNat a r,
    fun _ _ hr => rotl32_toNat a (hr.trans (by decide))⟩

end Sys2Proof.Machine
end

section
/-! PROOFS. The decoder and the encoder: a header's fields, each row's decoder, and that the transactions R89 lets
through are the encodings of the commands. -/

namespace Sys2Proof

/-! ## A header's fields -/

theorem headerOp_toNat (h : Wide) : (headerOp h).toNat = fieldOf h 127 120 := by
  simp [headerOp, fieldOf, Nat.shiftRight_eq_div_pow]

theorem headerRsv_toNat (h : Wide) : (headerRsv h).toNat = fieldOf h 119 96 := by
  simp [headerRsv, fieldOf, Nat.shiftRight_eq_div_pow]

theorem headerA_toNat (h : Wide) : (headerA h).toNat = fieldOf h 95 64 := by
  simp [headerA, fieldOf, Nat.shiftRight_eq_div_pow]

theorem headerB_toNat (h : Wide) : (headerB h).toNat = fieldOf h 63 0 := by
  simp [headerB, fieldOf]

section

variable (op : BitVec 8) (a : Word) (b : BitVec 64)

@[simp] theorem headerOp_mkHeader : headerOp (mkHeader op a b) = op :=
  BitVec.eq_of_toNat_eq ((headerOp_toNat _).trans (Laws.mkHeader_fields op a b).1)

@[simp] theorem headerRsv_mkHeader : headerRsv (mkHeader op a b) = 0 :=
  BitVec.eq_of_toNat_eq ((headerRsv_toNat _).trans (Laws.mkHeader_fields op a b).2.1)

@[simp] theorem headerA_mkHeader : headerA (mkHeader op a b) = a :=
  BitVec.eq_of_toNat_eq ((headerA_toNat _).trans (Laws.mkHeader_fields op a b).2.2.1)

@[simp] theorem headerB_mkHeader : headerB (mkHeader op a b) = b :=
  BitVec.eq_of_toNat_eq ((headerB_toNat _).trans (Laws.mkHeader_fields op a b).2.2.2)

end

/-- A header is the concatenation of its fields: no bit lies outside them (R81). -/
theorem mkHeader_eq_of_fields {h : Wide} {op : BitVec 8} {a : Word} {b : BitVec 64} (hrsv : headerRsv h = 0)
    (hop : (headerOp h).toNat = op.toNat) (ha : headerA h = a) (hb : headerB h = b) : mkHeader op a b = h := by
  have hrsv : fieldOf h 119 96 = 0 := by rw [← headerRsv_toNat, hrsv]; rfl
  have hlt := h.isLt
  apply BitVec.eq_of_toNat_eq
  rw [Laws.mkHeader_toNat, ← hop, ← ha, ← hb, headerOp_toNat, headerA_toNat, headerB_toNat]
  simp only [fieldOf] at hrsv ⊢
  omega

/-! ## The rows of R82 -/

section

variable {a : Word} {b : BitVec 64} {payload : List Byte} {i : Instr}

theorem decodeConstruct_eq_instr : decodeConstruct a b payload = .instr i ↔ payload = [] ∧ .construct a b = i := by
  unfold decodeConstruct
  split <;> simp_all

theorem decodeInsert_eq_instr :
    decodeInsert a b payload = .instr i ↔ (a = 0 ∧ b = 0) ∧ .insert payload = i := by
  unfold decodeInsert
  split
  · next h => exact iff_of_false nofun fun hz => not_and_or.2 h hz.1
  · next h => simp_all

theorem decodeQuery_eq_instr : decodeQuery a b payload = .instr i ↔ (a = 0 ∧ b = 0) ∧ .query payload = i := by
  unfold decodeQuery
  split
  · next h => exact iff_of_false nofun fun hz => not_and_or.2 h hz.1
  · next h => simp_all

theorem decodeHash_eq_instr : decodeHash a b payload = .instr i ↔ b = 0 ∧ .hash a payload = i := by
  unfold decodeHash
  split <;> simp_all

theorem decodeCoord_eq_instr :
    decodeCoord a b payload = .instr i ↔ b = 0 ∧ payload = [] ∧ .coord a = i := by
  unfold decodeCoord
  split
  · next hb => exact iff_of_false nofun fun hz => hb hz.1
  · split <;> simp_all

end

/-! ## Decoding and encoding -/

theorem decode_encode (i : Instr) : decode (encode i) = .instr i := by
  cases i with
  | construct k m => simp [decode, encode, decodeConstruct]
  | insert item => simp [decode, encode, decodeInsert]
  | query item => simp [decode, encode, decodeQuery]
  | hash seed bytes => simp [decode, encode, decodeHash]
  | coord digest => simp [decode, encode, decodeCoord]

theorem encode_of_decode {c : Command} {i : Instr} (h : decode c = .instr i) : encode i = c := by
  obtain ⟨w, payload⟩ := c
  unfold decode at h
  split at h
  · cases h
  next hrsv =>
  replace hrsv : headerRsv w = 0 := not_not.1 hrsv
  split at h
  · next hop =>
    obtain ⟨rfl, rfl⟩ := decodeConstruct_eq_instr.1 h
    exact congrArg (Command.mk · []) (mkHeader_eq_of_fields hrsv hop rfl rfl)
  · next hop =>
    obtain ⟨⟨ha, hb⟩, rfl⟩ := decodeInsert_eq_instr.1 h
    exact congrArg (Command.mk · payload) (mkHeader_eq_of_fields hrsv hop ha hb)
  · next hop =>
    obtain ⟨⟨ha, hb⟩, rfl⟩ := decodeQuery_eq_instr.1 h
    exact congrArg (Command.mk · payload) (mkHeader_eq_of_fields hrsv hop ha hb)
  · next hop =>
    obtain ⟨hb, rfl⟩ := decodeHash_eq_instr.1 h
    exact congrArg (Command.mk · payload) (mkHeader_eq_of_fields hrsv hop rfl hb)
  · next hop =>
    obtain ⟨hb, rfl, rfl⟩ := decodeCoord_eq_instr.1 h
    exact congrArg (Command.mk · []) (mkHeader_eq_of_fields hrsv hop rfl hb)
  · cases h

theorem encode_wellFormed (i : Instr) : (encode i).wellFormed = true := by
  cases i with
  | construct k m => exact Laws.EncodingIsLegal.construct k m
  | insert item => exact Laws.EncodingIsLegal.insert item
  | query item => exact Laws.EncodingIsLegal.query item
  | hash seed bytes => exact Laws.EncodingIsLegal.hash seed bytes
  | coord digest => exact Laws.EncodingIsLegal.coord digest

/-- The decoder, written over bit vectors, refuses what R89's clauses, written over numbers, refuse: a transaction
it accepts is an encoding, and encodings are legal. -/
theorem decode_illegal_of_not_wellFormed {c : Command} (h : c.wellFormed = false) :
    ∃ why, decode c = .illegal why := by
  cases hd : decode c with
  | illegal why => exact ⟨why, rfl⟩
  | instr i => rw [← encode_of_decode hd, encode_wellFormed] at h; cases h

end Sys2Proof
end

section
/-! PROOFS. What the step does with a transaction, and R216's order of errors. -/

namespace Sys2Proof.Machine

/-! ## The arms of exec -/

section

variable (s : State)

theorem exec_construct (k : Word) (m : BitVec 64) : exec (.construct k m) s = execConstruct k m s := rfl
theorem exec_insert (item : List Byte) : exec (.insert item) s = execInsert item s := rfl
theorem exec_query (item : List Byte) : exec (.query item) s = execQuery item s := rfl
theorem exec_hash (seed : Word) (bytes : List Byte) : exec (.hash seed bytes) s = execHash seed bytes s := rfl
theorem exec_coord (digest : Word) : exec (.coord digest) s = execCoord digest s := rfl

end

/-! ## The step on a command transaction -/

section

variable {s : State} {c : Command} {rest : List HostEvent}

theorem step_of_decode_instr {i : Instr} (hp : s.port = .command c :: rest) (hd : decode c = .instr i) :
    step s = exec i (s.withPort rest) := by
  simp only [step, hp, hd]

theorem step_of_encode {i : Instr} (hp : s.port = .command (encode i) :: rest) :
    step s = exec i (s.withPort rest) :=
  step_of_decode_instr hp (decode_encode i)

theorem step_of_not_wellFormed (hp : s.port = .command c :: rest) (hc : c.wellFormed = false) :
    step s = .next ((s.withPort rest).raise .illegalCommand) := by
  obtain ⟨why, hd⟩ := decode_illegal_of_not_wellFormed hc
  simp only [step, hp, hd]

end

/-! ## Errors -/

/-- The commands that need a filter, before there is one (R214). -/
theorem exec_of_not_constructed {s : State} (hs : s.constructed = false) (item : List Byte) (digest : Word) :
    ∀ i ∈ [Instr.insert item, .query item, .coord digest], exec i s = .next (s.raise .notConstructed) := by
  simp [exec_insert, exec_query, exec_coord, execInsert, execQuery, execCoord, hs]

/-- The response words of the five errors (R210, R217). -/
theorem responseWord_of_error :
    responseWord .illegalCommand 0 0 = 0x03000000000000000000000000000000 ∧
    responseWord .alreadyConstructed 0 0 = 0x05000000000000000000000000000000 ∧
    responseWord .invalidParameters 0 0 = 0x01000000000000000000000000000000 ∧
    responseWord .allocationFailure 0 0 = 0x02000000000000000000000000000000 ∧
    responseWord .notConstructed 0 0 = 0x04000000000000000000000000000000 := by decide

/-- An error's response is all it leaves (R13, R217; log 9 for the working registers). -/
theorem raise_withPort (e : Status) (s : State) (rest : List HostEvent) :
    (s.withPort rest).raise e =
      { s with port := rest, responses := s.responses ++ [responseWord e 0 0] } := rfl

/-- A command that needs a filter, taken before there is one, is answered NotConstructed. -/
theorem step_of_not_constructed {s : State} {rest : List HostEvent} {i : Instr}
    (hp : s.port = .command (encode i) :: rest) (hs : s.constructed = false) (item : List Byte) (digest : Word)
    (hi : i ∈ [Instr.insert item, .query item, .coord digest]) :
    step s = .next { s with port := rest, responses := s.responses ++ [responseWord .notConstructed 0 0] } := by
  rw [step_of_encode hp, exec_of_not_constructed (by simpa using hs) item digest i hi, raise_withPort]

/-- Settles O30: an illegal transaction never reaches exec; a legal one is run by exec, whose CONSTRUCT tests R216's
conditions in their order. -/
theorem errorPriority : Obligations.ErrorPriority := by
  intro s c rest hp
  obtain ⟨hIllegal, hAlready, hInvalid, hAlloc, hNot⟩ := responseWord_of_error
  split
  · next hc => rw [step_of_not_wellFormed hp hc, raise_withPort, hIllegal]
  refine ⟨?_, ?_, ?_⟩
  · rintro k m rfl
    rw [step_of_encode hp, exec_construct, execConstruct]
    simp only [State.withPort_constructed, State.withPort_bitStore]
    split
    · rw [raise_withPort, hAlready]
    split
    · rw [raise_withPort, hInvalid]
    split
    · rw [raise_withPort, hAlloc]
    · exact ⟨_, rfl, by simp⟩
  · rintro item (rfl | rfl) hs
    · exact hNot ▸ step_of_not_constructed hp hs item 0 (by simp)
    · exact hNot ▸ step_of_not_constructed hp hs item 0 (by simp)
  · rintro digest rfl hs
    exact hNot ▸ step_of_not_constructed hp hs [] digest (by simp)

end Sys2Proof.Machine
end

section
/-! PROOFS. What reset leaves, and the shape of a constructed filter. -/

namespace Sys2Proof.Machine

/-! ## Reset -/

/-- An unbuilt filter has every shape register zero and no byte listed; the clauses about a built one are empty. -/
theorem resetWith_inv {n : Nat} (hn : 1 ≤ n) : (State.resetWith n).Inv where
  capacity := hn
  canonical := reset_bitStore_wf n
  zeroFilled := rfl
  confined := List.forall_mem_nil _
  counting := rfl
  unbuilt _ := ⟨rfl, rfl, rfl⟩
  built := nofun
  padding := nofun

/-- Settles O44: State.reset is the reset with capacity `2^46`, at least one chunk. -/
theorem resetMeetsTheInvariant : Obligations.ResetMeetsTheInvariant :=
  ⟨resetWith_inv (by decide), fun _ => resetWith_inv⟩

/-! ## The shape -/

/-- The four shape registers stand (R21 to R24). -/
def State.SameShape (s t : State) : Prop :=
  t.m = s.m ∧ t.k = s.k ∧ t.nchunks = s.nchunks ∧ t.constructed = s.constructed

theorem insertLoop_sameShape {item : List Byte} {n : Nat} {seed : Word} {s t : State}
    (h : insertLoop item n seed s = some t) : s.SameShape t := by
  rw [(insertLoop_spec h).1]
  exact ⟨rfl, rfl, rfl, rfl⟩

theorem queryLoop_sameShape {item : List Byte} {n : Nat} {seed : Word} {s t : State}
    (h : queryLoop item n seed s = some t) : s.SameShape t := by
  rw [(queryLoop_spec h).1]
  exact ⟨rfl, rfl, rfl, rfl⟩

theorem queryLoop_bitStore {item : List Byte} {n : Nat} {seed : Word} {s t : State}
    (h : queryLoop item n seed s = some t) : t.bitStore = s.bitStore := by
  rw [(queryLoop_spec h).1]

/-- A command keeps the shape registers, but for the CONSTRUCT that builds the filter. -/
theorem exec_sameShape {i : Instr} {s t : State} (hs : s.constructed = true) (h : exec i s = .next t) :
    s.SameShape t := by
  cases i with
  | construct k m =>
    rcases execConstruct_cases h with ⟨-, rfl⟩ | ⟨hf, -⟩ | ⟨hf, -⟩ | ⟨hf, -⟩
    · simp [State.SameShape]
    all_goals simp [hs] at hf
  | insert item =>
    rcases execInsert_cases h with ⟨-, rfl⟩ | ⟨-, u, hu, rfl⟩
    · simp [State.SameShape]
    · simpa [State.SameShape] using insertLoop_sameShape hu
  | query item =>
    rcases execQuery_cases h with ⟨-, rfl⟩ | ⟨-, u, hu, rfl⟩
    · simp [State.SameShape]
    · simpa [State.SameShape] using queryLoop_sameShape hu
  | hash seed bytes =>
    rw [exec_hash, execHash_eq] at h
    cases h
    simp [State.SameShape]
  | coord digest =>
    rcases execCoord_cases h with ⟨-, rfl⟩ | ⟨-, rfl⟩ <;> simp [State.SameShape]

/-- No command changes MAX_CHUNKS (R11). -/
theorem exec_maxChunks {i : Instr} {s t : State} (h : exec i s = .next t) :
    t.bitStore.maxChunks = s.bitStore.maxChunks := by
  cases i with
  | construct k m =>
    rcases execConstruct_cases h with ⟨-, rfl⟩ | ⟨-, -, rfl⟩ | ⟨-, -, -, rfl⟩ | ⟨-, -, -, rfl⟩ <;> simp
  | insert item =>
    rcases execInsert_cases h with ⟨-, rfl⟩ | ⟨-, u, hu, rfl⟩
    · simp
    · simpa using (insertLoop_spec hu).2.1
  | query item =>
    rcases execQuery_cases h with ⟨-, rfl⟩ | ⟨-, u, hu, rfl⟩
    · simp
    · simpa using congrArg BitStore.maxChunks (queryLoop_bitStore hu)
  | hash seed bytes =>
    rw [exec_hash, execHash_eq] at h
    cases h
    simp
  | coord digest =>
    rcases execCoord_cases h with ⟨-, rfl⟩ | ⟨-, rfl⟩ <;> simp

theorem step_maxChunks {s t : State} (h : step s = .next t) : t.bitStore.maxChunks = s.bitStore.maxChunks := by
  rcases step_cases h with ⟨-, rfl⟩ | ⟨_, _, -, rfl⟩ | ⟨_, _, _, -, -, hx⟩ | ⟨_, _, _, -, -, rfl⟩
  · rfl
  · simp [BitStore.afterReset]
  · simpa using exec_maxChunks hx
  · simp

/-- Settles O48: the shape by the cases of each meaning, the capacity by the cases of the step. -/
theorem shapeIsImmutable : Obligations.ShapeIsImmutable := by
  refine ⟨fun i s t hs h => ?_, fun s t => step_maxChunks⟩
  obtain ⟨hm, hk, hn, hc⟩ := exec_sameShape hs h
  exact ⟨hm, hk, hn, hc.trans hs⟩

end Sys2Proof.Machine
end

section
/-! PROOFS. The step by its four cases, what a reset leaves, and what every step keeps of the BitStore and of the
invariant. -/

namespace Sys2Proof.Machine

/-! ## The cases of the step -/

section

variable {s : State}

theorem step_of_idle (hp : s.port = []) : step s = .next s := by
  simp only [step, hp]

theorem step_of_reset {f : Option Command} {rest : List HostEvent} (hp : s.port = .reset f :: rest) :
    step s = .next (s.withPort rest).takeReset := by
  simp only [step, hp]

theorem step_of_decode_illegal {c : Command} {rest : List HostEvent} {why : Rejection}
    (hp : s.port = .command c :: rest) (hd : decode c = .illegal why) :
    step s = .next ((s.withPort rest).raise .illegalCommand) := by
  simp only [step, hp, hd]

end

/-- Settles O8. -/
theorem idleBlockHoldsItsState : Obligations.IdleBlockHoldsItsState := fun _ => step_of_idle

/-! ## Reset -/

@[simp] theorem BitStore.afterReset_maxChunks (b : BitStore) : b.afterReset.maxChunks = b.maxChunks := by cases b; rfl
@[simp] theorem BitStore.afterReset_epoch (b : BitStore) : b.afterReset.epoch = b.epoch + 1 := by cases b; rfl
@[simp] theorem BitStore.afterReset_filled (b : BitStore) : b.afterReset.filled = 0 := by cases b; rfl
@[simp] theorem BitStore.afterReset_cells (b : BitStore) : b.afterReset.cells = [] := by cases b; rfl

/-- After a reset no byte is listed or zero-filled, so every byte is unspecified anew (R38; log 5). -/
@[simp] theorem BitStore.afterReset_byteAt (b : BitStore) (g : Nat) :
    b.afterReset.byteAt g = Config.unspecifiedByte (b.epoch + 1) g := by
  simp [BitStore.byteAt, listedByte, BitStore.unlisted]

/-- Settles O9: takeReset keeps the port and the responses, and its BitStore is the one after reset. -/
theorem resetDropsTheFilter : Obligations.ResetDropsTheFilter := fun _ _ _ hp =>
  ⟨_, step_of_reset hp, by simp⟩

/-- Settles O45. -/
theorem resetRegisters : Obligations.ResetRegisters := ⟨rfl, rfl, rfl, rfl⟩

/-! ## The canonical form -/

theorem exec_wf {i : Instr} {s t : State} (hw : s.bitStore.wf = true) (h : exec i s = .next t) :
    t.bitStore.wf = true := by
  cases i with
  | construct k m =>
    rcases execConstruct_cases h with ⟨-, rfl⟩ | ⟨-, -, rfl⟩ | ⟨-, -, -, rfl⟩ | ⟨-, -, -, rfl⟩
    · simpa using hw
    · simpa using hw
    · simpa using hw
    · simpa using bsAlloc_wf hw (chunkCount m)
  | insert item =>
    rcases execInsert_cases h with ⟨-, rfl⟩ | ⟨-, u, hu, rfl⟩
    · simpa using hw
    · obtain ⟨-, -, -, -, -, hkeep⟩ := insertLoop_spec hu
      simpa using (hkeep hw).1
  | query item =>
    rcases execQuery_cases h with ⟨-, rfl⟩ | ⟨-, u, hu, rfl⟩
    · simpa using hw
    · simpa [queryLoop_bitStore hu] using hw
  | hash seed bytes =>
    rw [exec_hash, execHash_eq] at h
    cases h
    simpa using hw
  | coord digest =>
    rcases execCoord_cases h with ⟨-, rfl⟩ | ⟨-, rfl⟩ <;> simpa using hw

/-- Settles O47: the writes are BS_ALLOC's and BS_SET's, which keep the form; a reset lists no byte. -/
theorem everyStepKeepsCanonicalMemory : Obligations.EveryStepKeepsCanonicalMemory := by
  intro s t hw h
  rcases step_cases h with ⟨-, rfl⟩ | ⟨f, rest, -, rfl⟩ | ⟨c, rest, i, -, -, hx⟩ | ⟨c, rest, why, -, -, rfl⟩
  · exact hw
  · simpa using BitStore.afterReset_wf s.bitStore
  · exact exec_wf (by simpa using hw) hx
  · simpa using hw

/-! ## The invariant -/

/-- The invariant speaks of the shape registers, the BitStore, CNT and LEN, and of nothing else. -/
theorem State.Inv.of_sameShape {s t : State} (hs : s.Inv) (hshape : s.SameShape t) (hb : t.bitStore = s.bitStore)
    (he : t.he.cnt.toNat = t.he.len.toNat % 4) : t.Inv := by
  obtain ⟨hm, hk, hn, hc⟩ := hshape
  obtain ⟨capacity, canonical, zeroFilled, confined, -, unbuilt, built, padding⟩ := hs
  rw [← hb] at capacity canonical zeroFilled confined built padding
  rw [← hn] at zeroFilled confined unbuilt built padding
  rw [← hm, ← hc] at unbuilt built padding
  rw [← hk] at unbuilt built
  exact ⟨capacity, canonical, zeroFilled, confined, he, unbuilt, built, padding⟩

theorem State.Inv.withPort {s : State} (hs : s.Inv) (rest : List HostEvent) : (s.withPort rest).Inv :=
  hs.of_sameShape (by simp [State.SameShape]) (by simp) (by simpa using hs.counting)

theorem State.Inv.respond {s : State} (hs : s.Inv) (st : Status) (r : Word) (q : BitVec 64) :
    (s.respond st r q).Inv :=
  hs.of_sameShape (by simp [State.SameShape]) (by simp) (by simpa using hs.counting)

theorem State.Inv.raise {s : State} (hs : s.Inv) (e : Status) : (s.raise e).Inv := hs.respond e 0 0

theorem State.Inv.takeReset {s : State} (hs : s.Inv) : s.takeReset.Inv where
  capacity := by simpa using hs.capacity
  canonical := by simpa using BitStore.afterReset_wf s.bitStore
  zeroFilled := by simp
  confined := by simp
  counting := by simp
  unbuilt := by simp
  built := by simp
  padding := by simp

/-- NCHUNKS holds the chunk count: it fits the register (R191). -/
theorem State.construct_nchunks_toNat (k : Word) (m : BitVec 64) (s : State) :
    (s.construct k m).nchunks.toNat = chunkCount m := by
  have hm := m.isLt
  have hlt : chunkCount m < 2 ^ 64 := by unfold chunkCount; omega
  rw [State.construct_nchunks, BitVec.toNat_ofNat, Nat.mod_eq_of_lt hlt]

/-- An allocated chunk holds no 1 (R192). -/
theorem bsAlloc_bitAt {nc i : Nat} (b : BitStore) (hi : i < nc * 262144) : (bsAlloc nc b).bitAt i = false := by
  rw [BitStore.bitAt, bsAlloc_byteAt, if_pos (by omega)]
  exact BitVec.getLsbD_zero

/-- Before CONSTRUCT, NCHUNKS is 0, so no byte is listed and none zero-filled. -/
theorem State.Inv.bitStore_of_unbuilt {s : State} (hs : s.Inv) (hc : s.constructed = false) :
    s.bitStore.filled = 0 ∧ s.bitStore.cells = [] := by
  obtain ⟨-, -, hn⟩ := hs.unbuilt hc
  have hfilled := hs.zeroFilled
  have hcells := hs.confined
  rw [hn] at hfilled hcells
  exact ⟨hfilled, List.eq_nil_iff_forall_not_mem.2 fun c hmem => absurd (hcells c hmem) (by simp)⟩

theorem State.Inv.construct {s : State} (hs : s.Inv) (hc : s.constructed = false) {k : Word} {m : BitVec 64}
    (hm : m ≠ 0) (hk : k ≠ 0) (hfit : chunkCount m ≤ s.bitStore.maxChunks) : (s.construct k m).Inv := by
  obtain ⟨hfilled, hcells⟩ := hs.bitStore_of_unbuilt hc
  have hn := s.construct_nchunks_toNat k m
  exact {
    capacity := by simpa using hs.capacity
    canonical := by simpa using bsAlloc_wf hs.canonical (chunkCount m)
    zeroFilled := by rw [hn]; simp [hfilled]
    confined := by simp [bsAlloc, hcells]
    counting := by simpa using hs.counting
    unbuilt := by simp
    built := fun _ => by simpa only [hn, State.construct_m, State.construct_k, State.construct_bitStore,
      bsAlloc_maxChunks, true_and] using And.intro hm (And.intro hk hfit)
    padding := fun _ i _ hi => by
      rw [hn] at hi
      exact bsAlloc_bitAt s.bitStore hi }

/-- One probe of INSERT: it selects a bit below M, so it writes a chunk of the filter and leaves the padding. -/
theorem State.Inv.insertProbe {s : State} (hs : s.Inv) (hc : s.constructed = true) {item : List Byte} {seed : Word}
    {b : BitStore} (h : bsSet s.bitStore (probeCoordinate item seed s) = some b) :
    ((s.probe item seed).withBitStore b).Inv := by
  obtain ⟨hm, -, hn, -⟩ := hs.built hc
  have hlt : passIndex item seed s.m < s.m.toNat := bitIndex_lt hm _
  have hle := le_chunkCount s.m
  have hw := bsSet_wf hs.canonical h
  obtain ⟨rfl, -⟩ := bsSet_probe h
  exact {
    capacity := by simpa using hs.capacity
    canonical := by simpa using hw
    zeroFilled := by simpa using hs.zeroFilled
    confined := fun c hmem => by
      simp only [State.withBitStore_bitStore, BitStore.setByte_cells, State.withBitStore_nchunks,
        State.probe_nchunks] at hmem ⊢
      rcases mem_setCell hmem with ⟨rfl, -⟩ | hold
      · dsimp only; omega
      · exact hs.confined c hold
    counting := by
      rw [State.withBitStore_he, State.probe_he]; exact hashPass_counting seed item
    unbuilt := by simp [hc]
    built := fun _ => by simpa using hs.built hc
    padding := fun _ i hi hi' => by
      simp only [State.withBitStore_m, State.probe_m, State.withBitStore_nchunks, State.probe_nchunks,
        State.withBitStore_bitStore] at hi hi' ⊢
      have hne : i ≠ passIndex item seed s.m := by omega
      rw [bitAt_after_probe hs.canonical, hs.padding hc i hi hi']
      simpa using hne }

theorem State.Inv.of_insertLoop {item : List Byte} {n : Nat} {seed : Word} {s t : State} (hs : s.Inv)
    (hc : s.constructed = true) (h : insertLoop item n seed s = some t) : t.Inv := by
  induction n generalizing seed s with
  | zero =>
    cases h
    exact hs
  | succ n ih =>
    obtain ⟨b, hb, h⟩ := Option.bind_eq_some_iff.1 h
    exact ih (hs.insertProbe hc hb) (by simpa using hc) h

theorem State.Inv.of_queryLoop {item : List Byte} {n : Nat} {seed : Word} {s t : State} (hs : s.Inv)
    (h : queryLoop item n seed (s.withHit true) = some t) : t.Inv := by
  obtain ⟨-, hhe, -⟩ := queryLoop_spec h
  refine hs.of_sameShape (by simpa [State.SameShape] using queryLoop_sameShape h) ?_ ?_
  · simpa using queryLoop_bitStore h
  · rcases hhe with he | ⟨sd, he⟩ <;> rw [he]
    · exact hs.counting
    · exact hashPass_counting sd item

theorem exec_keeps_inv {i : Instr} {s t : State} (hs : s.Inv) (h : exec i s = .next t) : t.Inv := by
  cases i with
  | construct k m =>
    rcases execConstruct_cases h with ⟨-, rfl⟩ | ⟨-, -, rfl⟩ | ⟨-, -, -, rfl⟩ | ⟨hc, ⟨hm, hk⟩, hfit, rfl⟩
    · exact hs.raise _
    · exact hs.raise _
    · exact hs.raise _
    · exact (hs.construct hc hm hk hfit).respond _ _ _
  | insert item =>
    rcases execInsert_cases h with ⟨-, rfl⟩ | ⟨hc, u, hu, rfl⟩
    · exact hs.raise _
    · exact (hs.of_insertLoop hc hu).respond _ _ _
  | query item =>
    rcases execQuery_cases h with ⟨-, rfl⟩ | ⟨-, u, hu, rfl⟩
    · exact hs.raise _
    · exact (hs.of_queryLoop hu).respond _ _ _
  | hash seed bytes =>
    rw [exec_hash, execHash_eq] at h
    cases h
    refine hs.of_sameShape (by simp [State.SameShape]) (by simp) ?_
    rw [State.withEngine_he]
    exact hashPass_counting seed bytes
  | coord digest =>
    rcases execCoord_cases h with ⟨-, rfl⟩ | ⟨-, rfl⟩
    · exact hs.raise _
    · exact hs.respond _ _ _

/-- Settles O46: by the cases of the step; CONSTRUCT establishes the clauses about a built filter and each probe of
INSERT keeps them. -/
theorem everyStepKeepsTheInvariant : Obligations.EveryStepKeepsTheInvariant := by
  intro s t hs h
  rcases step_cases h with ⟨-, rfl⟩ | ⟨f, rest, -, rfl⟩ | ⟨c, rest, i, -, -, hx⟩ | ⟨c, rest, why, -, -, rfl⟩
  · exact hs
  · exact (hs.withPort rest).takeReset
  · exact exec_keeps_inv (hs.withPort rest) hx
  · exact (hs.withPort rest).raise _

end Sys2Proof.Machine
end

section
/-! PROOFS. What no outcome depends on: the working registers, and the unspecified bytes of the BitStore. Each time
every operation commutes with the view of the state that hides them. -/

namespace Sys2Proof.Machine

/-! ## Outcomes of the probe loops -/

/-- The outcome of a command that runs a probe loop and answers from the state the loop leaves. -/
def answerWith (f : State → State) : Option State → Host.Outcome State Fault Refusal
  | some u => .next (f u)
  | none => .fault .noSuchChunk

theorem execInsert_of_constructed {s : State} (hc : s.constructed = true) (item : List Byte) :
    execInsert item s = answerWith (fun u => u.respond .ok 0 0) (insertLoop item s.k.toNat 0 s) := by
  rw [execInsert, if_pos hc]
  cases insertLoop item s.k.toNat 0 s <;> rfl

theorem execQuery_of_constructed {s : State} (hc : s.constructed = true) (item : List Byte) :
    execQuery item s = answerWith (fun u => u.respond .ok (bitResult u.hit) 0)
      (queryLoop item s.k.toNat 0 (s.withHit true)) := by
  rw [execQuery, if_pos hc]
  cases queryLoop item s.k.toNat 0 (s.withHit true) <;> rfl

/-- A view of the loop's last state that keeps all that is seen of the answer decides what is seen. -/
theorem seenThrough_answerWith_congr {see view f : State → State} (hf : ∀ u, see (f (view u)) = see (f u))
    {o p : Option State} (h : o.map view = p.map view) :
    seenThrough see (answerWith f o) = seenThrough see (answerWith f p) := by
  match o, p, h with
  | none, none, _ => rfl
  | some u, some v, h =>
    have huv : view u = view v := Option.some.inj h
    rw [answerWith, seenThrough, ← hf u, huv, hf v, answerWith, seenThrough]

/-- An answer that commutes with a view of the state is the answer to the view. -/
theorem answerWith_map {view f : State → State} (hf : ∀ u, f (view u) = view (f u)) (o : Option State) :
    answerWith f (o.map view) = seenThrough view (answerWith f o) := by
  cases o with
  | none => rfl
  | some u => exact congrArg Host.Outcome.next (hf u)

/-! ## The working registers -/

section

variable (s : State)

@[simp] theorem State.forgetWorking_m : s.forgetWorking.m = s.m := by cases s; rfl
@[simp] theorem State.forgetWorking_k : s.forgetWorking.k = s.k := by cases s; rfl
@[simp] theorem State.forgetWorking_constructed : s.forgetWorking.constructed = s.constructed := by cases s; rfl
@[simp] theorem State.forgetWorking_bitStore : s.forgetWorking.bitStore = s.bitStore := by cases s; rfl
@[simp] theorem State.forgetWorking_port : s.forgetWorking.port = s.port := by cases s; rfl

@[simp] theorem State.forgetWorking_forgetWorking : s.forgetWorking.forgetWorking = s.forgetWorking := by cases s; rfl

@[simp] theorem State.forgetWorking_probe (item : List Byte) (seed : Word) :
    (s.probe item seed).forgetWorking = s.forgetWorking := by cases s; rfl

@[simp] theorem State.forgetWorking_withEngine (e : HashEngine) :
    (s.withEngine e).forgetWorking = s.forgetWorking := by cases s; rfl

@[simp] theorem State.forgetWorking_withBitStore (b : BitStore) :
    (s.withBitStore b).forgetWorking = s.forgetWorking.withBitStore b := by cases s; rfl

@[simp] theorem State.forgetWorking_respond (st : Status) (r : Word) (q : BitVec 64) :
    (s.respond st r q).forgetWorking = s.forgetWorking.respond st r q := by cases s; rfl

@[simp] theorem State.forgetWorking_raise (e : Status) : (s.raise e).forgetWorking = s.forgetWorking.raise e :=
  s.forgetWorking_respond e 0 0

@[simp] theorem State.forgetWorking_construct (k : Word) (m : BitVec 64) :
    (s.construct k m).forgetWorking = s.forgetWorking.construct k m := by cases s; rfl

@[simp] theorem State.withPort_forgetWorking (rest : List HostEvent) :
    s.forgetWorking.withPort rest = (s.withPort rest).forgetWorking := by cases s; rfl

@[simp] theorem State.takeReset_forgetWorking : s.forgetWorking.takeReset = s.takeReset := by cases s; rfl

end

/-- A probe's coordinate is computed from the item, its seed and M. -/
theorem probeCoordinate_congr {s t : State} (h : t.m = s.m) (item : List Byte) (seed : Word) :
    probeCoordinate item seed t = probeCoordinate item seed s := by
  rw [probeCoordinate, probeCoordinate, h]

theorem insertLoop_forgetWorking (item : List Byte) (n : Nat) (seed : Word) (s : State) :
    (insertLoop item n seed s.forgetWorking).map State.forgetWorking =
      (insertLoop item n seed s).map State.forgetWorking := by
  induction n generalizing seed s with
  | zero => simp [insertLoop]
  | succ n ih =>
    simp only [insertLoop, Option.map_bind, State.forgetWorking_bitStore,
      probeCoordinate_congr s.forgetWorking_m item seed]
    refine Option.bind_congr fun b _ => ?_
    rw [Function.comp_apply, Function.comp_apply, ← ih, ← ih _ ((s.probe item seed).withBitStore b)]
    simp only [State.forgetWorking_withBitStore, State.forgetWorking_probe, State.forgetWorking_forgetWorking]

/-! QUERY answers from HIT, which it writes before its loop, so its loop is seen with HIT kept. -/

/-- The state with the registers of the probe's hash pass forgotten: HIT is kept. -/
def State.forgetPass (s : State) : State := { s with he := { len := 0, cnt := 0, acc := 0, h := 0 }, seed := 0 }

section

variable (s : State)

@[simp] theorem State.forgetPass_m : s.forgetPass.m = s.m := by cases s; rfl
@[simp] theorem State.forgetPass_hit : s.forgetPass.hit = s.hit := by cases s; rfl
@[simp] theorem State.forgetPass_bitStore : s.forgetPass.bitStore = s.bitStore := by cases s; rfl

@[simp] theorem State.forgetPass_forgetPass : s.forgetPass.forgetPass = s.forgetPass := by cases s; rfl

@[simp] theorem State.probe_forgetPass (item : List Byte) (seed : Word) :
    s.forgetPass.probe item seed = s.probe item seed := by cases s; rfl

@[simp] theorem State.forgetWorking_forgetPass : s.forgetPass.forgetWorking = s.forgetWorking := by cases s; rfl

/-- Once HIT is written, no working register is left of an earlier command but those of a hash pass. -/
theorem State.withHit_forgetWorking (v : Bool) : s.forgetWorking.withHit v = (s.withHit v).forgetPass := by
  cases s; rfl

end

/-- The first probe writes all that is forgotten. -/
theorem queryLoop_forgetPass (item : List Byte) (n : Nat) (seed : Word) (s : State) :
    (queryLoop item n seed s.forgetPass).map State.forgetPass = (queryLoop item n seed s).map State.forgetPass := by
  cases n with
  | zero => simp [queryLoop]
  | succ n =>
    simp only [queryLoop, State.forgetPass_bitStore, probeCoordinate_congr s.forgetPass_m item seed,
      State.probe_forgetPass]

theorem exec_forgetWorking (i : Instr) (s : State) :
    seenThrough State.forgetWorking (exec i s.forgetWorking) = seenThrough State.forgetWorking (exec i s) := by
  cases i with
  | construct k m =>
    simp only [exec_construct, execConstruct, State.forgetWorking_constructed, State.forgetWorking_bitStore]
    split_ifs <;> simp [seenThrough]
  | insert item =>
    simp only [exec_insert]
    by_cases hc : s.constructed = true
    · rw [execInsert_of_constructed hc, execInsert_of_constructed (s.forgetWorking_constructed.trans hc),
        State.forgetWorking_k]
      exact seenThrough_answerWith_congr (by simp) (insertLoop_forgetWorking item _ 0 s)
    · simp [execInsert, hc, seenThrough]
  | query item =>
    simp only [exec_query]
    by_cases hc : s.constructed = true
    · rw [execQuery_of_constructed hc, execQuery_of_constructed (s.forgetWorking_constructed.trans hc),
        State.forgetWorking_k, State.withHit_forgetWorking]
      exact seenThrough_answerWith_congr (by simp) (queryLoop_forgetPass item _ 0 (s.withHit true))
    · simp [execQuery, hc, seenThrough]
  | hash seed bytes => simp [exec_hash, execHash_eq, seenThrough]
  | coord digest =>
    simp only [exec_coord, execCoord, State.forgetWorking_constructed, State.forgetWorking_m]
    split_ifs <;> simp [seenThrough]

theorem step_forgetWorking (s : State) :
    seenThrough State.forgetWorking (step s.forgetWorking) = seenThrough State.forgetWorking (step s) := by
  have hport := s.forgetWorking_port
  match hp : s.port with
  | [] =>
    rw [step_of_idle hp, step_of_idle (hport.trans hp)]
    simp [seenThrough]
  | .reset f :: rest =>
    rw [step_of_reset hp, step_of_reset (hport.trans hp)]
    simp
  | .command c :: rest =>
    cases hd : decode c with
    | instr i =>
      rw [step_of_decode_instr hp hd, step_of_decode_instr (hport.trans hp) hd, State.withPort_forgetWorking,
        exec_forgetWorking]
    | illegal why =>
      rw [step_of_decode_illegal hp hd, step_of_decode_illegal (hport.trans hp) hd]
      simp [seenThrough]

/-- Settles O49: two states with the same view step, as seen, like that view. -/
theorem workingRegistersAreUnobservable : Obligations.WorkingRegistersAreUnobservable := by
  intro s t h
  rw [← step_forgetWorking s, h, step_forgetWorking t]

/-! ## The unspecified bytes -/

/-- The BitStore with the free values of another epoch. -/
def BitStore.withEpoch (e : Nat) (b : BitStore) : BitStore := { b with epoch := e }

/-- Every byte a probe can select was zero-filled by BS_ALLOC: what the invariant says of a constructed block. -/
def State.ProbesZeroFilled (s : State) : Prop := s.m ≠ 0 ∧ chunkCount s.m ≤ s.bitStore.filled

theorem State.Inv.probesZeroFilled {s : State} (hs : s.Inv) (hc : s.constructed = true) : s.ProbesZeroFilled := by
  obtain ⟨hm, -, hn, -⟩ := hs.built hc
  exact ⟨hm, by rw [hs.zeroFilled, hn]⟩

section

variable (e : Nat) (s : State)

@[simp] theorem State.withEpoch_m : (s.withEpoch e).m = s.m := by cases s; rfl
@[simp] theorem State.withEpoch_k : (s.withEpoch e).k = s.k := by cases s; rfl
@[simp] theorem State.withEpoch_hit : (s.withEpoch e).hit = s.hit := by cases s; rfl
@[simp] theorem State.withEpoch_constructed : (s.withEpoch e).constructed = s.constructed := by cases s; rfl
@[simp] theorem State.withEpoch_port : (s.withEpoch e).port = s.port := by cases s; rfl
@[simp] theorem State.withEpoch_bitStore : (s.withEpoch e).bitStore = s.bitStore.withEpoch e := by cases s; rfl

theorem State.withEpoch_withPort (rest : List HostEvent) :
    (s.withEpoch e).withPort rest = (s.withPort rest).withEpoch e := by cases s; rfl

theorem State.withEpoch_respond (st : Status) (r : Word) (q : BitVec 64) :
    (s.withEpoch e).respond st r q = (s.respond st r q).withEpoch e := by cases s; rfl

theorem State.withEpoch_raise (err : Status) : (s.withEpoch e).raise err = (s.raise err).withEpoch e :=
  s.withEpoch_respond e err 0 0

theorem State.withEpoch_withHit (v : Bool) : (s.withEpoch e).withHit v = (s.withHit v).withEpoch e := by cases s; rfl

theorem State.withEpoch_withEngine (he : HashEngine) :
    (s.withEpoch e).withEngine he = (s.withEngine he).withEpoch e := by cases s; rfl

theorem State.withEpoch_probe (item : List Byte) (seed : Word) :
    (s.withEpoch e).probe item seed = (s.probe item seed).withEpoch e := by cases s; rfl

theorem State.withEpoch_withBitStore (b : BitStore) :
    (s.withEpoch e).withBitStore (b.withEpoch e) = (s.withBitStore b).withEpoch e := by cases s; rfl

theorem State.withEpoch_construct (k : Word) (m : BitVec 64) :
    (s.withEpoch e).construct k m = (s.construct k m).withEpoch e := by cases s; rfl

end

/-! A zero-filled byte is no unspecified byte: it is read and written alike in every epoch. -/

section

variable {b : BitStore} {g : Nat} (e : Nat)

@[simp] theorem BitStore.withEpoch_maxChunks (b : BitStore) : (b.withEpoch e).maxChunks = b.maxChunks := by
  cases b; rfl

@[simp] theorem BitStore.withEpoch_size (b : BitStore) : (b.withEpoch e).size = b.size := by
  rw [BitStore.size, BitStore.size, BitStore.withEpoch_maxChunks]

theorem BitStore.unlisted_withEpoch (hg : g < b.filled * 32768) : (b.withEpoch e).unlisted g = b.unlisted g := by
  rw [BitStore.unlisted, BitStore.unlisted, if_pos hg, if_pos (show g < (b.withEpoch e).filled * 32768 from hg)]

theorem BitStore.byteAt_withEpoch (hg : g < b.filled * 32768) : (b.withEpoch e).byteAt g = b.byteAt g := by
  have hcells : (b.withEpoch e).cells = b.cells := rfl
  rw [BitStore.byteAt, BitStore.byteAt, hcells, BitStore.unlisted_withEpoch e hg]

theorem BitStore.setByte_withEpoch (hg : g < b.filled * 32768) (v : Byte) :
    (b.withEpoch e).setByte g v = (b.setByte g v).withEpoch e := by
  rw [BitStore.setByte, BitStore.unlisted_withEpoch e hg]
  rfl

theorem bsSet_withEpoch {c : Coordinate} (hc : c.globalByte < b.filled * 32768) :
    bsSet (b.withEpoch e) c = (bsSet b c).map (BitStore.withEpoch e) := by
  refine Option.ext fun d => ?_
  rw [Option.map_eq_some_iff, bsSet_eq_some, BitStore.withEpoch_size, BitStore.byteAt_withEpoch e hc,
    BitStore.setByte_withEpoch e hc]
  simp only [bsSet_eq_some]
  exact ⟨fun ⟨hlt, hd⟩ => ⟨_, ⟨hlt, rfl⟩, hd.symm⟩, fun ⟨_, ⟨hlt, ha⟩, hd⟩ => ⟨hlt, by rw [← hd, ha]⟩⟩

theorem bsTest_withEpoch {c : Coordinate} (hc : c.globalByte < b.filled * 32768) :
    bsTest (b.withEpoch e) c = bsTest b c := by
  refine Option.ext fun r => ?_
  rw [bsTest_eq_some, bsTest_eq_some, BitStore.withEpoch_size, BitStore.byteAt_withEpoch e hc]

end

theorem State.ProbesZeroFilled.globalByte_lt {s : State} (hs : s.ProbesZeroFilled) (item : List Byte) (seed : Word) :
    (probeCoordinate item seed s).globalByte < s.bitStore.filled * 32768 := by
  obtain ⟨hm, hfilled⟩ := hs
  have hlt : passIndex item seed s.m < s.m.toNat := bitIndex_lt hm _
  have hle := le_chunkCount s.m
  rw [probeCoordinate_globalByte]
  omega

theorem insertLoop_withEpoch (e : Nat) (item : List Byte) (n : Nat) (seed : Word) {s : State}
    (hs : s.ProbesZeroFilled) :
    insertLoop item n seed (s.withEpoch e) = (insertLoop item n seed s).map (State.withEpoch e) := by
  induction n generalizing seed s with
  | zero => rfl
  | succ n ih =>
    simp only [insertLoop, State.withEpoch_bitStore, probeCoordinate_congr (s.withEpoch_m e) item seed,
      bsSet_withEpoch e (hs.globalByte_lt item seed), Option.map_bind, Option.bind_map]
    refine Option.bind_congr fun b hb => ?_
    have hfilled : b.filled = s.bitStore.filled := by
      rw [(bsSet_probe hb).1, BitStore.setByte_filled]
    have hnext : ((s.probe item seed).withBitStore b).ProbesZeroFilled := by
      simpa [State.ProbesZeroFilled, hfilled] using hs
    rw [Function.comp_apply, Function.comp_apply, State.withEpoch_probe, State.withEpoch_withBitStore, ih _ hnext]

theorem queryLoop_withEpoch (e : Nat) (item : List Byte) (n : Nat) (seed : Word) {s : State}
    (hs : s.ProbesZeroFilled) :
    queryLoop item n seed (s.withEpoch e) = (queryLoop item n seed s).map (State.withEpoch e) := by
  induction n generalizing seed s with
  | zero => rfl
  | succ n ih =>
    have hnext : (s.probe item seed).ProbesZeroFilled := by simpa [State.ProbesZeroFilled] using hs
    simp only [queryLoop, State.withEpoch_bitStore, probeCoordinate_congr (s.withEpoch_m e) item seed,
      bsTest_withEpoch e (hs.globalByte_lt item seed), Option.map_bind, State.withEpoch_probe,
      State.withEpoch_withHit, ih _ hnext]
    refine Option.bind_congr fun bit _ => ?_
    cases bit with
    | false => simp
    | true => simp

theorem exec_withEpoch (e : Nat) (i : Instr) {s : State} (hs : s.Inv) :
    exec i (s.withEpoch e) = seenThrough (State.withEpoch e) (exec i s) := by
  cases i with
  | construct k m =>
    simp only [exec_construct, execConstruct, State.withEpoch_constructed, State.withEpoch_bitStore,
      BitStore.withEpoch_maxChunks, State.withEpoch_raise, State.withEpoch_construct, State.withEpoch_respond]
    split_ifs <;> rfl
  | insert item =>
    simp only [exec_insert]
    by_cases hc : s.constructed = true
    · rw [execInsert_of_constructed hc, execInsert_of_constructed ((s.withEpoch_constructed e).trans hc),
        State.withEpoch_k, insertLoop_withEpoch e item _ 0 (hs.probesZeroFilled hc)]
      exact answerWith_map (fun u => u.withEpoch_respond e .ok 0 0) _
    · simp [execInsert, hc, seenThrough, State.withEpoch_raise]
  | query item =>
    simp only [exec_query]
    by_cases hc : s.constructed = true
    · have hprobes : (s.withHit true).ProbesZeroFilled := by
        simpa [State.ProbesZeroFilled] using hs.probesZeroFilled hc
      rw [execQuery_of_constructed hc, execQuery_of_constructed ((s.withEpoch_constructed e).trans hc),
        State.withEpoch_k, State.withEpoch_withHit, queryLoop_withEpoch e item _ 0 hprobes]
      exact answerWith_map (fun u => by rw [State.withEpoch_hit, State.withEpoch_respond]) _
    · simp [execQuery, hc, seenThrough, State.withEpoch_raise]
  | hash seed bytes =>
    rw [exec_hash, exec_hash, execHash_eq, execHash_eq, State.withEpoch_respond, State.withEpoch_withEngine,
      seenThrough]
  | coord digest =>
    simp only [exec_coord, execCoord, State.withEpoch_constructed, State.withEpoch_m, State.withEpoch_respond,
      State.withEpoch_raise]
    split_ifs <;> rfl

/-- Settles O50: every coordinate of a constructed block lies in the chunks BS_ALLOC zero-filled, so the probes read
and write alike in every epoch; no other operation looks at a byte. -/
theorem unspecifiedBytesAreUnobservable : Obligations.UnspecifiedBytesAreUnobservable := by
  intro s e hs hnoreset
  have hport := s.withEpoch_port e
  match hp : s.port with
  | [] =>
    rw [step_of_idle hp, step_of_idle (hport.trans hp), seenThrough]
  | .reset f :: rest => exact absurd hp (hnoreset f rest)
  | .command c :: rest =>
    cases hd : decode c with
    | instr i =>
      rw [step_of_decode_instr hp hd, step_of_decode_instr (hport.trans hp) hd, State.withEpoch_withPort]
      exact exec_withEpoch e i (hs.withPort rest)
    | illegal why =>
      rw [step_of_decode_illegal hp hd, step_of_decode_illegal (hport.trans hp) hd, State.withEpoch_withPort,
        State.withEpoch_raise, seenThrough]

end Sys2Proof.Machine
end

section
/-! PROOFS. The streaming hash engine: a run of HBYTEs packs a short tail, mixes a block after each fourth byte, and
with HFIN leaves R119's digest in H; so the probes the loops run select the bits of `Probed`. -/

namespace Sys2Proof.Machine

/-- HBYTEs that end no block pack their bytes into ACC. -/
theorem foldl_hbyte_short (bytes : List Byte) {e : HashEngine} (h : e.cnt.toNat + bytes.length < 4) :
    bytes.foldl hbyte e =
      { h := e.h, acc := bytes.foldl packByte e.acc, cnt := e.cnt + BitVec.ofNat 2 bytes.length,
        len := e.len + BitVec.ofNat 32 bytes.length } := by
  induction bytes generalizing e with
  | nil => simp
  | cons b rest ih =>
    rw [List.length_cons] at h
    have hne : e.cnt ≠ 3 := by rintro heq; rw [heq] at h; simp at h; omega
    have hcnt : (e.cnt + 1).toNat + rest.length < 4 := by
      rw [BitVec.toNat_add, show (1 : BitVec 2).toNat = 1 from rfl]; omega
    rw [List.foldl_cons, hbyte_of_ne hne, ih hcnt, List.foldl_cons, List.length_cons, Nat.add_comm rest.length,
      BitVec.ofNat_add, BitVec.ofNat_add, ← BitVec.add_assoc, ← BitVec.add_assoc]
    rfl

/-- Four HBYTEs from an empty ACC mix one block. -/
theorem foldl_hbyte_block {e : HashEngine} (hcnt : e.cnt = 0) (hacc : e.acc = 0) (b0 b1 b2 b3 : Byte) :
    [b0, b1, b2, b3].foldl hbyte e =
      { h := mix e.h (pack [b0, b1, b2, b3]), acc := 0, cnt := 0, len := e.len + 4 } := by
  have hshort := foldl_hbyte_short [b0, b1, b2] (e := e) (by simp [hcnt])
  rw [show [b0, b1, b2, b3] = [b0, b1, b2] ++ [b3] from rfl, List.foldl_append, hshort, hcnt, hacc, List.foldl_cons,
    hbyte_of_eq (by rfl), List.foldl_nil, BitVec.add_assoc, pack, List.foldl_append]
  rfl

/-- HBYTEs from an empty ACC: the complete blocks are mixed into H and the tail stands in ACC (R125). -/
theorem foldl_hbyte_aligned (bytes : List Byte) {e : HashEngine} (hcnt : e.cnt = 0) (hacc : e.acc = 0) :
    bytes.foldl hbyte e =
      { h := blockPhase e.h bytes, acc := pack (tailBytes bytes), cnt := BitVec.ofNat 2 bytes.length,
        len := e.len + BitVec.ofNat 32 bytes.length } := by
  induction bytes using tailBytes.induct generalizing e with
  | case1 b0 b1 b2 b3 rest ih =>
    rw [show b0 :: b1 :: b2 :: b3 :: rest = [b0, b1, b2, b3] ++ rest from rfl, List.foldl_append,
      foldl_hbyte_block hcnt hacc, ih rfl rfl, List.length_append, BitVec.ofNat_add, BitVec.ofNat_add,
      ← BitVec.add_assoc]
    simp [blockPhase_block, tailBytes]
  | case2 tail htail =>
    have hlt : tail.length < 4 := by
      match tail, htail with
      | [], _ | [_], _ | [_, _], _ | [_, _, _], _ => simp
      | b0 :: b1 :: b2 :: b3 :: rest, hno => exact absurd rfl (hno b0 b1 b2 b3 rest)
    obtain ⟨hblocks, htails⟩ := blocksOf_short hlt
    rw [foldl_hbyte_short tail (by simpa [hcnt] using hlt), hcnt, hacc]
    simp [blockPhase, hblocks, htails, pack]

/-- The digest a pass leaves in H is R119's. -/
theorem hashPass_h (seed : Word) (bytes : List Byte) : (hashPass seed bytes).h = hashOf bytes seed := by
  rw [hashPass, absorb, foldl_hbyte_aligned bytes (by rfl) (by rfl)]
  simp [hfin, hashOf, hinit]

/-- The bit index the loops compute is the one of R148. -/
theorem passIndex_eq_probeIndex (item : List Byte) (seed : Word) (m : BitVec 64) :
    passIndex item seed m = probeIndex item seed m := by
  rw [passIndex, probeIndex, hashPass_h]

/-- The bits a whole loop's probes select: seeds 0 to K-1 (R148). -/
theorem probed_iff_passIndex {item : List Byte} {k : Word} {m : BitVec 64} {i : Nat} :
    Probed item k m i ↔ ∃ j, j < k.toNat ∧ passIndex item (0 + BitVec.ofNat 32 j) m = i := by
  simp only [Probed, passIndex_eq_probeIndex, zero_add]

end Sys2Proof.Machine
end

section
/-! PROOFS. The BitStore as memory (20_memory.md): reads after a write, the set of 1 bits INSERTs add, and which bytes
each command can change. -/

namespace Sys2Proof.Machine

/-! ## Reads after a write -/

theorem BitStore.memRead_setByte_same {b : BitStore} (hb : b.wf = true) {g : Nat} (hg : g < b.size) (v : Byte) :
    (b.setByte g v).memRead g = some v := by
  rw [memRead, setByte_size, if_pos hg, byteAt_setByte hb, if_pos rfl]

theorem BitStore.memRead_setByte_of_ne {b : BitStore} (hb : b.wf = true) {g g' : Nat} (hne : g' ≠ g) (v : Byte) :
    (b.setByte g v).memRead g' = b.memRead g' := by
  rw [memRead, memRead, setByte_size, byteAt_setByte hb, if_neg hne]

/-- Settles O25: where the byte exists the write is one byte set, which keeps the canonical form. -/
theorem readsReturnTheLatestWrite : Obligations.ReadsReturnTheLatestWrite := by
  intro b g v hb
  split
  · next hg =>
    exact ⟨b.setByte g v, if_pos hg, BitStore.setByte_wf hb hg v, BitStore.memRead_setByte_same hb hg v,
      fun g' hne => BitStore.memRead_setByte_of_ne hb hne v⟩
  · next hg => exact ⟨if_neg hg, if_neg hg⟩

/-! ## Bits added to a BitStore -/

/-- A byte is its eight bits. -/
theorem BitStore.byteAt_eq_of_bitAt {b d : BitStore} {g : Nat} (h : ∀ i, i / 8 = g → d.bitAt i = b.bitAt i) :
    d.byteAt g = b.byteAt g := by
  refine BitVec.eq_of_getLsbD_eq fun j hj => ?_
  have hbit := h (g * 8 + j) (by omega)
  rwa [bitAt, bitAt, show (g * 8 + j) / 8 = g by omega, show (g * 8 + j) % 8 = j by omega] at hbit

/-- `d` is canonical, of the shape of `b`, and its 1 bits are those of `b` and those of `added`. -/
structure BitStore.AddsBits (b d : BitStore) (added : Nat → Prop) : Prop where
  canonical : d.wf = true
  maxChunks : d.maxChunks = b.maxChunks
  epoch : d.epoch = b.epoch
  filled : d.filled = b.filled
  bits : ∀ i, d.bitAt i = true ↔ b.bitAt i = true ∨ added i

section

variable {b c d d' : BitStore} {p q : Nat → Prop}

/-- A byte none of the added bits lies in stands. -/
theorem BitStore.AddsBits.byteAt_eq (h : b.AddsBits d p) {g : Nat} (hg : ∀ i, p i → i / 8 ≠ g) :
    d.byteAt g = b.byteAt g := by
  refine byteAt_eq_of_bitAt fun i hi => Bool.eq_iff_iff.2 ?_
  rw [h.bits i]
  exact or_iff_left fun hp => hg i hp hi

theorem BitStore.AddsBits.refl (hb : b.wf = true) (hp : ∀ i, ¬ p i) : b.AddsBits b p :=
  ⟨hb, rfl, rfl, rfl, fun i => (or_iff_left (hp i)).symm⟩

theorem BitStore.AddsBits.trans (h : b.AddsBits c p) (h' : c.AddsBits d q) : b.AddsBits d fun i => p i ∨ q i where
  canonical := h'.canonical
  maxChunks := h'.maxChunks.trans h.maxChunks
  epoch := h'.epoch.trans h.epoch
  filled := h'.filled.trans h.filled
  bits i := by rw [h'.bits, h.bits, or_assoc]

/-- The set of added bits alone determines the outcome. -/
theorem BitStore.AddsBits.unique (h : b.AddsBits d p) (h' : b.AddsBits d' q) (hpq : ∀ i, p i ↔ q i) : d = d' := by
  refine ext_of_byteAt h.canonical h'.canonical (h.maxChunks.trans h'.maxChunks.symm) (h.epoch.trans h'.epoch.symm)
    (h.filled.trans h'.filled.symm) fun g => byteAt_eq_of_bitAt fun i _ => Bool.eq_iff_iff.2 ?_
  rw [h.bits, h'.bits, hpq i]

end

/-! ## INSERT -/

/-- INSERT's K probes add exactly the probed bits. -/
theorem insertLoop_addsBits {item : List Byte} {s t : State} (hw : s.bitStore.wf = true)
    (h : insertLoop item s.k.toNat 0 s = some t) : s.bitStore.AddsBits t.bitStore (Probed item s.k s.m) := by
  obtain ⟨-, hmax, hepoch, hfilled, -, hbits⟩ := insertLoop_spec h
  obtain ⟨hwt, hbits⟩ := hbits hw
  exact ⟨hwt, hmax, hepoch, hfilled, fun i => by rw [hbits, probed_iff_passIndex]⟩

theorem State.Inv.usable {s : State} (hs : s.Inv) (hc : s.constructed = true) : s.Usable := by
  obtain ⟨hm, -, -, hfit⟩ := hs.built hc
  exact ⟨hc, hm, hfit⟩

/-- On a usable block INSERT completes, adds its probed bits, and leaves a usable block of the same shape. -/
theorem exec_insert_addsBits {s : State} (hs : s.Usable) (hw : s.bitStore.wf = true) (item : List Byte) :
    ∃ t, exec (.insert item) s = .next t ∧ t.Usable ∧ s.SameShape t ∧
      s.bitStore.AddsBits t.bitStore (Probed item s.k s.m) := by
  obtain ⟨hc, hm, hfit⟩ := hs
  obtain ⟨u, hu⟩ := insertLoop_completes item s.k.toNat 0 hm hfit
  have hexec : exec (.insert item) s = .next (u.respond .ok 0 0) := by
    rw [exec_insert, execInsert_of_constructed hc, hu, answerWith]
  have hshape := exec_sameShape hc hexec
  have hadds := insertLoop_addsBits hw hu
  refine ⟨_, hexec, ?_, hshape, by simpa using hadds⟩
  obtain ⟨hm', -, -, hc'⟩ := hshape
  rw [State.Usable, hm', hc', exec_maxChunks hexec]
  exact ⟨hc, hm, hfit⟩

/-- `i` is selected by a probe of one of the items. -/
def ProbedByAny (items : List (List Byte)) (k : Word) (m : BitVec 64) (i : Nat) : Prop :=
  ∃ item ∈ items, Probed item k m i

/-- A list of INSERTs completes and adds the bits its items probe. -/
theorem runCommands_inserts_addsBits (items : List (List Byte)) {s : State} (hs : s.Usable)
    (hw : s.bitStore.wf = true) :
    ∃ t, runCommands (items.map .insert) s = .next t ∧
      s.bitStore.AddsBits t.bitStore (ProbedByAny items s.k s.m) := by
  induction items generalizing s with
  | nil => exact ⟨s, rfl, .refl hw (by simp [ProbedByAny])⟩
  | cons item rest ih =>
    obtain ⟨u, hexec, hu, ⟨hm, hk, -, -⟩, hfirst⟩ := exec_insert_addsBits hs hw item
    obtain ⟨t, hrun, hrest⟩ := ih hu hfirst.canonical
    rw [hm, hk] at hrest
    have hsplit : ProbedByAny (item :: rest) s.k s.m =
        fun i => Probed item s.k s.m i ∨ ProbedByAny rest s.k s.m i := by
      funext i; simp [ProbedByAny]
    refine ⟨t, ?_, hsplit ▸ hfirst.trans hrest⟩
    rw [List.map_cons, runCommands, hexec]
    exact hrun

/-- Settles O39: either list adds the bits probed by its items, and lists of the same items probe the same bits. -/
theorem insertOrderDoesNotMatter : Obligations.InsertOrderDoesNotMatter := by
  intro s items items' hs hc hsame
  obtain ⟨t, hrun, hadds⟩ := runCommands_inserts_addsBits items (hs.usable hc) hs.canonical
  obtain ⟨t', hrun', hadds'⟩ := runCommands_inserts_addsBits items' (hs.usable hc) hs.canonical
  exact ⟨t, t', hrun, hrun', hadds.unique hadds' fun i => by simp only [ProbedByAny, hsame]⟩

/-! ## The frame over memory -/

/-- CONSTRUCT and INSERT alone reach the BitStore's writes (R58). -/
theorem exec_bitStore {i : Instr} {s t : State} (hconstruct : ∀ k m, i ≠ .construct k m)
    (hinsert : ∀ item, i ≠ .insert item) (h : exec i s = .next t) : t.bitStore = s.bitStore := by
  cases i with
  | construct k m => exact absurd rfl (hconstruct k m)
  | insert item => exact absurd rfl (hinsert item)
  | query item =>
    rcases execQuery_cases h with ⟨-, rfl⟩ | ⟨-, u, hu, rfl⟩
    · simp
    · simpa using queryLoop_bitStore hu
  | hash seed bytes =>
    rw [exec_hash, execHash_eq] at h
    cases h
    simp
  | coord digest =>
    rcases execCoord_cases h with ⟨-, rfl⟩ | ⟨-, rfl⟩ <;> simp

/-- CONSTRUCT writes no byte above the chunks it allocates (R192). -/
theorem exec_construct_byteAt {k : Word} {m : BitVec 64} {s t : State} {g : Nat} (hg : chunkCount m * 32768 ≤ g)
    (h : exec (.construct k m) s = .next t) : t.bitStore.byteAt g = s.bitStore.byteAt g := by
  rcases execConstruct_cases h with ⟨-, rfl⟩ | ⟨-, -, rfl⟩ | ⟨-, -, -, rfl⟩ | ⟨-, -, -, rfl⟩
  · simp
  · simp
  · simp
  · simp [bsAlloc_byteAt, hg]

/-- INSERT writes no byte but those its probes select (R193). -/
theorem exec_insert_byteAt {item : List Byte} {s t : State} {g : Nat} (hw : s.bitStore.wf = true)
    (hg : ∀ n, Probed item s.k s.m n → n / 8 ≠ g) (h : exec (.insert item) s = .next t) :
    t.bitStore.byteAt g = s.bitStore.byteAt g := by
  rcases execInsert_cases h with ⟨-, rfl⟩ | ⟨-, u, hu, rfl⟩
  · simp
  · simpa using (insertLoop_addsBits hw hu).byteAt_eq hg

/-- Settles O51: command by command. -/
theorem whichBytesACommandWrites : Obligations.WhichBytesACommandWrites := by
  intro i s t g hw h
  cases i with
  | construct k m => exact fun hg => exec_construct_byteAt hg h
  | insert item => exact fun hg => exec_insert_byteAt hw hg h
  | query | hash | coord => rw [exec_bitStore (by simp) (by simp) h]

end Sys2Proof.Machine
end

section
/-! PROOFS. The encoding: the samples of the test vectors, R89's clauses and the decoder, and R83's match and mask
patterns. -/

namespace Sys2Proof

/-! ## Decoding and encoding -/

/-- Settles O2: a header's fields are read back from their concatenation, and each row of R82 answers the operands it
was built from. -/
theorem decodeOfEncode : Obligations.DecodeOfEncode := decode_encode

/-- Settles O3: a header is the concatenation of its fields, and an accepting row fixes every field it does not hand
on. -/
theorem encodeOfDecode : Obligations.EncodeOfDecode := fun _ _ => encode_of_decode

/-- Settles O1: the decoder run on each of the ten transactions. -/
theorem sampleWordsDecode : Obligations.SampleWordsDecode := by
  unfold Obligations.SampleWordsDecode
  decide

/-! ## R89's clauses -/

namespace Command

variable (c : Command)

theorem opIsAssigned_eq_false_iff :
    c.opIsAssigned = false ↔ fieldOf c.header 127 120 < 1 ∨ 5 < fieldOf c.header 127 120 := by
  simp only [opIsAssigned, Bool.and_eq_false_iff, decide_eq_false_iff_not, not_le]

theorem reservedIsZero_eq_false_iff : c.reservedIsZero = false ↔ fieldOf c.header 119 96 ≠ 0 := by
  simp [reservedIsZero]

theorem unusedOperandsAreZero_eq_false_iff :
    c.unusedOperandsAreZero = false ↔
      ((fieldOf c.header 127 120 = 2 ∨ fieldOf c.header 127 120 = 3) ∧
        (fieldOf c.header 95 64 ≠ 0 ∨ fieldOf c.header 63 0 ≠ 0)) ∨
      ((fieldOf c.header 127 120 = 4 ∨ fieldOf c.header 127 120 = 5) ∧ fieldOf c.header 63 0 ≠ 0) := by
  unfold unusedOperandsAreZero
  split <;> simp_all [imp_iff_not_or]

theorem payloadIsAllowed_eq_false_iff :
    c.payloadIsAllowed = false ↔
      (fieldOf c.header 127 120 = 1 ∨ fieldOf c.header 127 120 = 5) ∧ c.payload ≠ [] := by
  unfold payloadIsAllowed
  split <;> simp_all

/-- The checks of WellFormed.lean are R89's (a) to (d). -/
theorem wellFormed_eq_false_iff :
    c.wellFormed = false ↔
      (fieldOf c.header 127 120 < 1 ∨ 5 < fieldOf c.header 127 120) ∨
      fieldOf c.header 119 96 ≠ 0 ∨
      ((fieldOf c.header 127 120 = 2 ∨ fieldOf c.header 127 120 = 3) ∧
        (fieldOf c.header 95 64 ≠ 0 ∨ fieldOf c.header 63 0 ≠ 0)) ∨
      ((fieldOf c.header 127 120 = 4 ∨ fieldOf c.header 127 120 = 5) ∧ fieldOf c.header 63 0 ≠ 0) ∨
      ((fieldOf c.header 127 120 = 1 ∨ fieldOf c.header 127 120 = 5) ∧ c.payload ≠ []) := by
  simp only [wellFormed, Bool.and_eq_false_iff, c.opIsAssigned_eq_false_iff, c.reservedIsZero_eq_false_iff,
    c.unusedOperandsAreZero_eq_false_iff, c.payloadIsAllowed_eq_false_iff, or_assoc]

end Command

/-! What makes a row of R82 refuse. -/

section

variable {a : Word} {b : BitVec 64} {payload : List Byte} {why : Rejection}

theorem payload_of_decodeConstruct_illegal (h : decodeConstruct a b payload = .illegal why) : payload ≠ [] :=
  fun hp => nomatch (decodeConstruct_eq_instr.2 ⟨hp, rfl⟩).symm.trans h

theorem operands_of_decodeInsert_illegal (h : decodeInsert a b payload = .illegal why) : a ≠ 0 ∨ b ≠ 0 :=
  not_and_or.1 fun hz => nomatch (decodeInsert_eq_instr.2 ⟨hz, rfl⟩).symm.trans h

theorem operands_of_decodeQuery_illegal (h : decodeQuery a b payload = .illegal why) : a ≠ 0 ∨ b ≠ 0 :=
  not_and_or.1 fun hz => nomatch (decodeQuery_eq_instr.2 ⟨hz, rfl⟩).symm.trans h

theorem operand_of_decodeHash_illegal (h : decodeHash a b payload = .illegal why) : b ≠ 0 :=
  fun hb => nomatch (decodeHash_eq_instr.2 ⟨hb, rfl⟩).symm.trans h

theorem operand_or_payload_of_decodeCoord_illegal (h : decodeCoord a b payload = .illegal why) :
    b ≠ 0 ∨ payload ≠ [] :=
  not_and_or.1 fun ⟨hb, hp⟩ => nomatch (decodeCoord_eq_instr.2 ⟨hb, hp, rfl⟩).symm.trans h

end

theorem headerRsv_ne_zero_iff (w : Wide) : headerRsv w ≠ 0 ↔ fieldOf w 119 96 ≠ 0 := by
  rw [← headerRsv_toNat]
  exact BitVec.toNat_ne

theorem headerA_ne_zero_iff (w : Wide) : headerA w ≠ 0 ↔ fieldOf w 95 64 ≠ 0 := by
  rw [← headerA_toNat]
  exact BitVec.toNat_ne

theorem headerB_ne_zero_iff (w : Wide) : headerB w ≠ 0 ↔ fieldOf w 63 0 ≠ 0 := by
  rw [← headerB_toNat]
  exact BitVec.toNat_ne

/-- The decoder refuses for no other reason than R89's clauses. -/
theorem not_wellFormed_of_decode_illegal {c : Command} {why : Rejection} (h : decode c = .illegal why) :
    c.wellFormed = false := by
  rw [c.wellFormed_eq_false_iff, ← headerRsv_ne_zero_iff, ← headerA_ne_zero_iff, ← headerB_ne_zero_iff]
  unfold decode at h
  split at h
  · next hrsv => exact .inr (.inl hrsv)
  rw [headerOp_toNat] at h
  split at h
  · next hop => exact .inr (.inr (.inr (.inr ⟨.inl hop, payload_of_decodeConstruct_illegal h⟩)))
  · next hop => exact .inr (.inr (.inl ⟨.inl hop, operands_of_decodeInsert_illegal h⟩))
  · next hop => exact .inr (.inr (.inl ⟨.inr hop, operands_of_decodeQuery_illegal h⟩))
  · next hop => exact .inr (.inr (.inr (.inl ⟨.inl hop, operand_of_decodeHash_illegal h⟩)))
  · next hop =>
    rcases operand_or_payload_of_decodeCoord_illegal h with hb | hp
    · exact .inr (.inr (.inr (.inl ⟨.inr hop, hb⟩)))
    · exact .inr (.inr (.inr (.inr ⟨.inr hop, hp⟩)))
  · next h1 h2 h3 h4 h5 =>
    simp only [imp_false] at h1 h2 h3 h4 h5
    omega

/-- A transaction that none of R89's clauses refuses decodes to a command. -/
theorem exists_decode_of_wellFormed {c : Command} (h : c.wellFormed = true) : ∃ i, decode c = .instr i := by
  cases hd : decode c with
  | instr i => exact ⟨i, rfl⟩
  | illegal why => rw [not_wellFormed_of_decode_illegal hd] at h; cases h

/-! ## R83's match and mask patterns -/

theorem wide_eq_iff_fields {v w : Wide} :
    v = w ↔ headerOp v = headerOp w ∧ headerRsv v = headerRsv w ∧ headerA v = headerA w ∧ headerB v = headerB w := by
  refine ⟨by rintro rfl; exact ⟨rfl, rfl, rfl, rfl⟩, fun ⟨hop, hrsv, ha, hb⟩ => ?_⟩
  have hv := v.isLt
  have hw := w.isLt
  rw [BitVec.toNat_eq, headerOp_toNat, headerOp_toNat] at hop
  rw [BitVec.toNat_eq, headerRsv_toNat, headerRsv_toNat] at hrsv
  rw [BitVec.toNat_eq, headerA_toNat, headerA_toNat] at ha
  rw [BitVec.toNat_eq, headerB_toNat, headerB_toNat] at hb
  simp only [fieldOf] at hop hrsv ha hb
  apply BitVec.eq_of_toNat_eq
  omega

section

variable (v w : Wide)

@[simp] theorem headerOp_and : headerOp (v &&& w) = headerOp v &&& headerOp w := BitVec.extractLsb'_and
@[simp] theorem headerRsv_and : headerRsv (v &&& w) = headerRsv v &&& headerRsv w := BitVec.extractLsb'_and
@[simp] theorem headerA_and : headerA (v &&& w) = headerA v &&& headerA w := BitVec.extractLsb'_and
@[simp] theorem headerB_and : headerB (v &&& w) = headerB v &&& headerB w := BitVec.extractLsb'_and

end

/-- The operation code of a command's row (R82). -/
def Instr.op : Instr → BitVec 8
  | .construct _ _ => 1
  | .insert _ => 2
  | .query _ => 3
  | .hash _ _ => 4
  | .coord _ => 5

/-- The row uses operand field A (R82). -/
def Instr.usesA : Instr → Bool
  | .construct _ _ | .hash _ _ | .coord _ => true
  | .insert _ | .query _ => false

/-- The row uses operand field B (R82). -/
def Instr.usesB : Instr → Bool
  | .construct _ _ => true
  | .insert _ | .query _ | .hash _ _ | .coord _ => false

section

variable (i : Instr)

theorem rowMatch_eq_mkHeader : rowMatch i = mkHeader i.op 0 0 := by
  cases i <;> simp only [rowMatch, Instr.op] <;> decide

theorem headerOp_rowMask : headerOp (rowMask i) = BitVec.allOnes 8 := by
  cases i <;> simp only [rowMask] <;> decide

theorem headerRsv_rowMask : headerRsv (rowMask i) = BitVec.allOnes 24 := by
  cases i <;> simp only [rowMask] <;> decide

theorem headerA_rowMask : headerA (rowMask i) = bif i.usesA then 0 else BitVec.allOnes 32 := by
  cases i <;> simp only [rowMask, Instr.usesA] <;> decide

theorem headerB_rowMask : headerB (rowMask i) = bif i.usesB then 0 else BitVec.allOnes 64 := by
  cases i <;> simp only [rowMask, Instr.usesB] <;> decide

theorem headerOp_encode : headerOp (encode i).header = i.op := by cases i <;> simp [encode, Instr.op]

theorem headerRsv_encode : headerRsv (encode i).header = 0 := by cases i <;> simp [encode]

variable {i}

theorem headerA_encode (h : i.usesA = false) : headerA (encode i).header = 0 := by
  cases i <;> simp_all [encode, Instr.usesA]

theorem headerB_encode (h : i.usesB = false) : headerB (encode i).header = 0 := by
  cases i <;> simp_all [encode, Instr.usesB]

/-- Masking a field out leaves nothing to ask of it, masking it in asks that it is zero. -/
theorem and_fieldMask_eq_zero_iff {n : Nat} (x : BitVec n) (used : Bool) :
    (x &&& bif used then 0 else BitVec.allOnes n) = 0 ↔ (used = false → x = 0) := by
  cases used <;> simp

/-- A row's pattern, field by field: OP is the row's, RSV is zero, and so is each operand field the row does not
use. -/
theorem and_rowMask_eq_rowMatch_iff {w : Wide} :
    w &&& rowMask i = rowMatch i ↔
      headerOp w = i.op ∧ headerRsv w = 0 ∧ (i.usesA = false → headerA w = 0) ∧ (i.usesB = false → headerB w = 0) := by
  rw [wide_eq_iff_fields, rowMatch_eq_mkHeader, headerOp_and, headerRsv_and, headerA_and, headerB_and,
    headerOp_rowMask, headerRsv_rowMask, headerA_rowMask, headerB_rowMask, headerOp_mkHeader, headerRsv_mkHeader,
    headerA_mkHeader, headerB_mkHeader, BitVec.and_allOnes, BitVec.and_allOnes, and_fieldMask_eq_zero_iff,
    and_fieldMask_eq_zero_iff]

end

/-- A header that a row's pattern selects spells a command of that row. -/
theorem exists_encode_of_selected {w : Wide} {i : Instr} (h : w &&& rowMask i = rowMatch i) :
    ∃ j, encode j = ⟨w, []⟩ ∧ j.op = i.op := by
  obtain ⟨hop, hrsv, ha, hb⟩ := and_rowMask_eq_rowMatch_iff.1 h
  have hop := congrArg BitVec.toNat hop
  have hsends {a b} (hA : headerA w = a) (hB : headerB w = b) : Command.mk (mkHeader i.op a b) [] = ⟨w, []⟩ :=
    congrArg (Command.mk · []) (mkHeader_eq_of_fields hrsv hop hA hB)
  cases i with
  | construct k m => exact ⟨.construct (headerA w) (headerB w), hsends rfl rfl, rfl⟩
  | insert item => exact ⟨.insert [], hsends (ha rfl) (hb rfl), rfl⟩
  | query item => exact ⟨.query [], hsends (ha rfl) (hb rfl), rfl⟩
  | hash seed bytes => exact ⟨.hash (headerA w) [], hsends rfl (hb rfl), rfl⟩
  | coord digest => exact ⟨.coord (headerA w), hsends rfl (hb rfl), rfl⟩

/-- Settles O5: a pattern asks its row's OP, and zeros where every transaction of the row has zeros; the row's match
value is its OP alone, so the OP tells the rows apart. -/
theorem matchAndMaskSelectTheCommand : Obligations.MatchAndMaskSelectTheCommand := by
  refine ⟨fun w p i h => ?_, fun w i h => ?_, fun w i j hi hj => ?_⟩
  · have hw : (encode i).header = w := congrArg Command.header (encode_of_decode h)
    rw [← hw]
    exact and_rowMask_eq_rowMatch_iff.2 ⟨headerOp_encode i, headerRsv_encode i, headerA_encode, headerB_encode⟩
  · obtain ⟨j, hj, hop⟩ := exists_encode_of_selected h
    exact ⟨j, hj ▸ decode_encode j, by rw [rowMatch_eq_mkHeader, rowMatch_eq_mkHeader, hop]⟩
  · obtain ⟨hopi, -⟩ := and_rowMask_eq_rowMatch_iff.1 hi
    obtain ⟨hopj, -⟩ := and_rowMask_eq_rowMatch_iff.1 hj
    rw [rowMatch_eq_mkHeader, rowMatch_eq_mkHeader, ← hopi, hopj]

end Sys2Proof
end

section
/-! PROOFS. The answer to a transaction: R89's IllegalCommand, R86's response word, and that every command ends with one
response; with the host's pseudo-instructions. -/

namespace Sys2Proof.Machine

/-- Settles O7: taking a transaction off the port is withPort. -/
theorem stepRunsTheDecodedCommand : Obligations.StepRunsTheDecodedCommand := fun _ _ _ _ =>
  step_of_decode_instr

/-- Settles O4: the clauses are those of wellFormed, and exactly the transactions they refuse are not decoded. -/
theorem illegalTransactionsAnswerIllegalCommand : Obligations.IllegalTransactionsAnswerIllegalCommand := by
  intro c
  obtain ⟨hIllegal, -⟩ := responseWord_of_error
  split
  · next hbad =>
    intro s rest hp
    rw [step_of_not_wellFormed hp (c.wellFormed_eq_false_iff.2 hbad), raise_withPort, hIllegal]
  · next hok =>
    exact exists_decode_of_wellFormed (Bool.of_not_eq_false fun hbad => hok (c.wellFormed_eq_false_iff.1 hbad))

/-! ## The response word -/

section

variable (st : Status) (r : Word) (q : BitVec 64)

/-- A response word is laid out like a header, with STATUS for OP, R32 for A and R64 for B (R81, R86). -/
theorem responseWord_eq_mkHeader : responseWord st r q = mkHeader st.code r q := rfl

@[simp] theorem responseStatus_responseWord : responseStatus (responseWord st r q) = st.code :=
  headerOp_mkHeader st.code r q

@[simp] theorem responseRsv_responseWord : responseRsv (responseWord st r q) = 0 := headerRsv_mkHeader st.code r q

@[simp] theorem responseR32_responseWord : responseR32 (responseWord st r q) = r := headerA_mkHeader st.code r q

@[simp] theorem responseR64_responseWord : responseR64 (responseWord st r q) = q := headerB_mkHeader st.code r q

end

theorem Status.code_toNat_le (st : Status) : st.code.toNat ≤ 5 := by cases st <;> decide

/-! ## One response per command -/

/-- `t` is reached from `s` by one response, zero in its result fields unless OK, with what the host still sends as it
was (R80, R86). -/
structure State.Answers (s t : State) : Prop where
  port : t.port = s.port
  response : ∃ st r q, t.responses = s.responses ++ [responseWord st r q] ∧ (st ≠ .ok → r = 0 ∧ q = 0)

theorem State.answers_raise (s : State) (e : Status) : s.Answers (s.raise e) :=
  ⟨s.raise_port e, e, 0, 0, s.raise_responses e, fun _ => ⟨rfl, rfl⟩⟩

theorem State.answers_respond_ok {s u : State} (hp : u.port = s.port) (hr : u.responses = s.responses) (r : Word)
    (q : BitVec 64) : s.Answers (u.respond .ok r q) :=
  ⟨by rw [State.respond_port, hp], .ok, r, q, by rw [State.respond_responses, hr], fun h => absurd rfl h⟩

theorem State.respond_withEngine (st : Status) (r : Word) (q : BitVec 64) (e : HashEngine) (s : State) :
    (s.respond st r q).withEngine e = (s.withEngine e).respond st r q := by cases s; rfl

theorem exec_answers {i : Instr} {s t : State} (h : exec i s = .next t) : s.Answers t := by
  cases i with
  | construct k m =>
    rcases execConstruct_cases h with ⟨-, rfl⟩ | ⟨-, -, rfl⟩ | ⟨-, -, -, rfl⟩ | ⟨-, -, -, rfl⟩
    · exact s.answers_raise _
    · exact s.answers_raise _
    · exact s.answers_raise _
    · exact State.answers_respond_ok (s.construct_port k m) (s.construct_responses k m) _ _
  | insert item =>
    rcases execInsert_cases h with ⟨-, rfl⟩ | ⟨-, u, hu, rfl⟩
    · exact s.answers_raise _
    · have hframe := (insertLoop_spec hu).1
      exact State.answers_respond_ok (by rw [hframe]) (by rw [hframe]) _ _
  | query item =>
    rcases execQuery_cases h with ⟨-, rfl⟩ | ⟨-, u, hu, rfl⟩
    · exact s.answers_raise _
    · have hframe := (queryLoop_spec hu).1
      exact State.answers_respond_ok (by rw [hframe]; simp) (by rw [hframe]; simp) _ _
  | hash seed bytes =>
    rw [exec_hash, execHash_eq, State.respond_withEngine] at h
    cases h
    exact State.answers_respond_ok (s.withEngine_port _) (s.withEngine_responses _) _ _
  | coord digest =>
    rcases execCoord_cases h with ⟨-, rfl⟩ | ⟨-, rfl⟩
    · exact s.answers_raise _
    · exact State.answers_respond_ok rfl rfl _ _

theorem step_answers {s t : State} {c : Command} {rest : List HostEvent} (hp : s.port = .command c :: rest)
    (h : step s = .next t) : (s.withPort rest).Answers t := by
  cases hd : decode c with
  | instr i =>
    rw [step_of_decode_instr hp hd] at h
    exact exec_answers h
  | illegal why =>
    rw [step_of_decode_illegal hp hd] at h
    cases h
    exact State.answers_raise _ _

/-- Settles O6: a response word is laid out like a header, and each command answers with one. -/
theorem responseFormat : Obligations.ResponseFormat := by
  refine ⟨fun st r q => ?_, fun s t c rest hp h => ?_⟩
  · rw [responseWord_eq_mkHeader, Laws.mkHeader_toNat]
  obtain ⟨-, st, r, q, hresp, herr⟩ := step_answers hp h
  refine ⟨responseWord st r q, by simpa using hresp, ?_, ?_, ?_⟩
  · simpa using st.code_toNat_le
  · simp
  · intro hne
    have hst : st ≠ .ok := by rintro rfl; exact hne (responseStatus_responseWord ..)
    simpa using herr hst

/-- From a state that meets the invariant every command completes: the probes of a constructed block select bytes that
exist (R174, R195). -/
theorem exec_completes {s : State} (hs : s.Inv) (i : Instr) : ∃ t, exec i s = .next t := by
  cases i with
  | construct k m =>
    rw [exec_construct, execConstruct]
    split_ifs <;> exact ⟨_, rfl⟩
  | insert item =>
    cases hc : s.constructed with
    | false => exact ⟨_, exec_of_not_constructed hc item 0 _ (by simp)⟩
    | true =>
      obtain ⟨t, ht, -⟩ := exec_insert_addsBits (hs.usable hc) hs.canonical item
      exact ⟨t, ht⟩
  | query item =>
    cases hc : s.constructed with
    | false => exact ⟨_, exec_of_not_constructed hc item 0 _ (by simp)⟩
    | true =>
      obtain ⟨-, hm, hfit⟩ := hs.usable hc
      obtain ⟨u, hu⟩ := queryLoop_completes item s.k.toNat 0 (s := s.withHit true) (by simpa using hm)
        (by simpa using hfit)
      exact ⟨_, by rw [exec_query, execQuery_of_constructed hc, hu, answerWith]⟩
  | hash seed bytes => exact ⟨_, execHash_eq seed bytes s⟩
  | coord digest =>
    rw [exec_coord, execCoord]
    split_ifs <;> exact ⟨_, rfl⟩

theorem step_completes_of_command {s : State} {c : Command} {rest : List HostEvent} (hs : s.Inv)
    (hp : s.port = .command c :: rest) : ∃ t, step s = .next t := by
  cases hd : decode c with
  | instr i =>
    rw [step_of_decode_instr hp hd]
    exact exec_completes (hs.withPort rest) i
  | illegal why => exact ⟨_, step_of_decode_illegal hp hd⟩

/-- Settles O10: the step completes, and what completes has answered once. -/
theorem everyCommandEndsWithOneResponse : Obligations.EveryCommandEndsWithOneResponse := by
  intro s c rest hs hp
  obtain ⟨t, ht⟩ := step_completes_of_command hs hp
  obtain ⟨hport, st, r, q, hresp, -⟩ := step_answers hp ht
  exact ⟨t, responseWord st r q, ht, by simpa using hport, by simpa using hresp⟩

/-! ## The pseudo-instructions -/

/-- Settles O55: the encoder run on R158's two texts; the aliases are the commands themselves. -/
theorem pseudoInstructionsExpand : Obligations.PseudoInstructionsExpand :=
  ⟨by decide, by decide, fun _ => ⟨rfl, rfl, rfl⟩⟩

theorem chunkCount_eq_ceilDiv (m : BitVec 64) : chunkCount m = m.toNat ⌈/⌉ 262144 := by
  rw [chunkCount, Nat.ceilDiv_eq_add_pred_div]
  omega

theorem exec_construct_of_fits {k : Word} {m : BitVec 64} {s : State} (hc : s.constructed = false) (hm : m ≠ 0)
    (hk : k ≠ 0) (hfit : chunkCount m ≤ s.bitStore.maxChunks) :
    exec (.construct k m) s = .next ((s.construct k m).respond .ok 0 (BitVec.ofNat 64 (chunkCount m))) := by
  rw [exec_construct, execConstruct, if_neg (by simp [hc]), if_neg (not_or.2 ⟨hm, hk⟩),
    if_neg (not_lt.2 hfit)]

theorem expand_new_of_fits {m k : ℤ} (hm : 0 ≤ m ∧ m < 2 ^ 64) (hk : 0 ≤ k ∧ k < 2 ^ 32) :
    Pseudo.expand (.new (some (m, k))) =
      .send (.construct (BitVec.ofNat 32 k.toNat) (BitVec.ofNat 64 m.toNat)) :=
  if_pos ⟨hm.1, hm.2, hk⟩

/-- Settles O54: sizes that fit their header fields are read back from them, so CONSTRUCT is run on `m` and `k`
themselves. -/
theorem newConstructs : Obligations.NewConstructs := by
  refine ⟨rfl, fun n m k p ⟨_, _, _, _, _, hm, hk⟩ => ⟨hm, hk⟩, fun m k s hm hm' hk hk' hc hfit => ?_⟩
  have hmw : (BitVec.ofNat 64 m.toNat).toNat = m.toNat := by rw [BitVec.toNat_ofNat]; omega
  have hkw : (BitVec.ofNat 32 k.toNat).toNat = k.toNat := by rw [BitVec.toNat_ofNat]; omega
  have hcount : chunkCount (BitVec.ofNat 64 m.toNat) = m.toNat ⌈/⌉ 262144 := by rw [chunkCount_eq_ceilDiv, hmw]
  have hm0 : BitVec.ofNat 64 m.toNat ≠ 0 := BitVec.toNat_ne.2 (by rw [hmw]; show m.toNat ≠ 0; omega)
  have hk0 : BitVec.ofNat 32 k.toNat ≠ 0 := BitVec.toNat_ne.2 (by rw [hkw]; show k.toNat ≠ 0; omega)
  refine ⟨_, _, expand_new_of_fits ⟨by omega, hm'⟩ ⟨by omega, hk'⟩,
    exec_construct_of_fits hc hm0 hk0 (hcount ▸ hfit), ?_, ?_, ?_, ?_⟩
  · rw [State.respond_m, State.construct_m, hmw, Int.toNat_of_nonneg (by omega)]
  · rw [State.respond_k, State.construct_k, hkw, Int.toNat_of_nonneg (by omega)]
  · simp
  · rw [State.respond_responses, State.construct_responses, hcount]

end Sys2Proof.Machine
end

section
/-! PROOFS. The hash engine (40_hash_engine.md): packing on numbers, what the micro-operations write, Hash by blocks and
tail and by the streaming form, and the command HASH. -/

namespace Sys2Proof.Machine

/-! ## Packing and the micro-operations -/

/-- Shifting a word by a byte leaves its low byte 0, so the byte put in carries nothing over. -/
theorem packByte_toNat (w : Word) (b : Byte) : (packByte w b).toNat = w.toNat * 256 % 2 ^ 32 + b.toNat := by
  have hb : b.toNat < 2 ^ 8 := b.isLt
  rw [packByte, add32, mul32, BitVec.toNat_add, BitVec.toNat_mul, BitVec.toNat_setWidth,
    show (256 : Word).toNat = 256 from rfl]
  omega

/-- Settles O12: each byte is shifted in at the bottom, and four bytes fit the word. -/
theorem packIsBigEndian : Obligations.PackIsBigEndian := by
  refine ⟨rfl, fun g0 g1 g2 g3 => ?_⟩
  have h0 : g0.toNat < 2 ^ 8 := g0.isLt
  have h1 : g1.toNat < 2 ^ 8 := g1.isLt
  have h2 : g2.toNat < 2 ^ 8 := g2.isLt
  have hstart : (0 : Word).toNat = 0 := rfl
  simp only [pack, List.foldl_cons, List.foldl_nil, packByte_toNat, hstart]
  omega

/-- Settles O14: HBYTE's word is packByte of ACC, and CNT = 3 tells its two cases apart. -/
theorem microOperations : Obligations.MicroOperations := by
  refine ⟨fun _ => rfl, fun e b => ⟨?_, packByte e.acc b, packByte_toNat e.acc b, ?_, ?_⟩, fun _ => rfl⟩
  · rw [hbyte_len, BitVec.toNat_add]
    rfl
  · intro hcnt
    rw [hbyte_of_eq (BitVec.eq_of_toNat_eq hcnt)]
    exact ⟨rfl, rfl, rfl⟩
  · intro hcnt
    have hlt : e.cnt.toNat + 1 < 2 ^ 2 := by have := e.cnt.isLt; omega
    rw [hbyte_of_ne (BitVec.toNat_ne.2 hcnt)]
    exact ⟨rfl, rfl, BitVec.toNat_add_of_lt hlt⟩

/-- Settles O13: the three functions run on the rules' values. -/
theorem workedHashValues : Obligations.WorkedHashValues := by
  unfold Obligations.WorkedHashValues
  decide

/-! ## Hash by complete blocks and tail -/

/-- A byte sequence is a tail of fewer than four bytes, or a complete block before a byte sequence (R115, R116). -/
theorem block_induction {motive : List Byte → Prop} (short : ∀ tail, tail.length < 4 → motive tail)
    (block : ∀ b0 b1 b2 b3 rest, motive rest → motive (b0 :: b1 :: b2 :: b3 :: rest)) : ∀ bytes, motive bytes
  | [] => short [] (by simp)
  | [_] => short _ (by simp)
  | [_, _] => short _ (by simp)
  | [_, _, _] => short _ (by simp)
  | b0 :: b1 :: b2 :: b3 :: rest => block b0 b1 b2 b3 rest (block_induction short block rest)

/-- The bytes of the complete blocks: four for each of the block at the front and the blocks after it. -/
theorem blocks_length_block (b0 b1 b2 b3 : Byte) (rest : List Byte) :
    4 * ((b0 :: b1 :: b2 :: b3 :: rest).length / 4) = 4 * (rest.length / 4) + 4 := by
  simp only [List.length_cons]
  omega

/-- The tail is what follows the complete blocks (R116). -/
theorem tailBytes_eq_drop (bytes : List Byte) : tailBytes bytes = bytes.drop (4 * (bytes.length / 4)) := by
  induction bytes using block_induction with
  | short tail htail => rw [(blocksOf_short htail).2, Nat.div_eq_of_lt htail, Nat.mul_zero, List.drop_zero]
  | block b0 b1 b2 b3 rest ih =>
    rw [blocks_length_block, tailBytes, ih]
    rfl

/-- The block phase reads the complete blocks only (R115). -/
theorem blockPhase_take (bytes : List Byte) (h : Word) :
    blockPhase h (bytes.take (4 * (bytes.length / 4))) = blockPhase h bytes := by
  induction bytes using block_induction generalizing h with
  | short tail htail => simp [Nat.div_eq_of_lt htail, blockPhase, blocksOf, (blocksOf_short htail).1]
  | block b0 b1 b2 b3 rest ih =>
    simp only [blocks_length_block, List.take_succ_cons, blockPhase_block, ih]

/-- Settles O15: a run of HBYTEs from HINIT's empty ACC has mixed the complete blocks and holds the tail in ACC. -/
theorem streamingFormComputesHash : Obligations.StreamingFormComputesHash := by
  intro bytes seed
  refine ⟨hashPass_h seed bytes, ?_⟩
  rw [foldl_hbyte_aligned bytes rfl rfl, blockPhase_take, ← tailBytes_eq_drop]
  exact ⟨by simp [hinit], by simp, rfl, rfl⟩

/-- The four bytes of a block. -/
def blockBytes (b : Byte × Byte × Byte × Byte) : List Byte := [b.1, b.2.1, b.2.2.1, b.2.2.2]

theorem flatMap_blockBytes_cons (b : Byte × Byte × Byte × Byte) (rest : List (Byte × Byte × Byte × Byte))
    (tail : List Byte) : (b :: rest).flatMap blockBytes ++ tail =
      b.1 :: b.2.1 :: b.2.2.1 :: b.2.2.2 :: (rest.flatMap blockBytes ++ tail) := rfl

theorem length_flatMap_blockBytes (blocks : List (Byte × Byte × Byte × Byte)) :
    (blocks.flatMap blockBytes).length = 4 * blocks.length := by
  simp [blockBytes, List.length_flatMap, mul_comm]

section

variable (blocks : List (Byte × Byte × Byte × Byte)) {tail : List Byte} (htail : tail.length < 4)

include htail

/-- The block phase mixes one block after the other (R115). -/
theorem blockPhase_flatMap_append (h : Word) :
    blockPhase h (blocks.flatMap blockBytes ++ tail) = blocks.foldl (fun h b => mix h (pack (blockBytes b))) h := by
  induction blocks generalizing h with
  | nil => simp [blockPhase, (blocksOf_short htail).1]
  | cons b rest ih => rw [flatMap_blockBytes_cons, blockPhase_block, ih, List.foldl_cons, blockBytes]

/-- Blocks in front of a tail leave it the tail (R116). -/
theorem tailBytes_flatMap_append : tailBytes (blocks.flatMap blockBytes ++ tail) = tail := by
  induction blocks with
  | nil => exact (blocksOf_short htail).2
  | cons b rest ih => rw [flatMap_blockBytes_cons, tailBytes, ih]

end

/-- Settles O17: the block phase, the tail and the length of blocks with a tail after them. -/
theorem blocksAreMixedInOrder : Obligations.BlocksAreMixedInOrder := by
  intro blocks tail seed htail
  change hashOf (blocks.flatMap blockBytes ++ tail) seed = _
  rw [hashOf, blockPhase_flatMap_append blocks htail, tailBytes_flatMap_append blocks htail, List.length_append,
    length_flatMap_blockBytes]
  rfl

/-! ## The identities of R127 -/

/-- Without a complete block, Hash is tail, length and finalization of the seed (R116 to R119). -/
theorem hashOf_short {bytes : List Byte} (h : bytes.length < 4) (seed : Word) :
    hashOf bytes seed = fmix (xor32 (xor32 seed (scramble (pack bytes))) (BitVec.ofNat 32 bytes.length)) := by
  simpa using blocksAreMixedInOrder [] bytes seed h

/-- An empty tail packs to 0, which scrambles to 0 (R116). -/
theorem scramble_pack_nil : scramble (pack []) = 0#32 := by decide

theorem xor32_zero (h : Word) : xor32 h 0#32 = h := BitVec.xor_zero

theorem hashOf_nil (seed : Word) : hashOf [] seed = fmix seed := by
  rw [hashOf_short (by simp), scramble_pack_nil, xor32_zero, List.length_nil, xor32_zero]

/-- A byte alone is its own tail word (R116). -/
theorem pack_singleton (b : Byte) : pack [b] = b.setWidth 32 :=
  BitVec.eq_of_toNat_eq (by rw [(packIsBigEndian.2 b 0 0 0).1, BitVec.toNat_setWidth_of_le (by decide)])

theorem hashOf_singleton (b : Byte) (seed : Word) :
    hashOf [b] seed = fmix (xor32 (xor32 seed (scramble (b.setWidth 32))) 1) := by
  rw [hashOf_short (by simp), pack_singleton, List.length_singleton, BitVec.ofNat_eq_ofNat]

theorem hashOf_one_block (a b c d : Byte) (seed : Word) :
    hashOf [a, b, c, d] seed = fmix (xor32 (mix seed (pack [a, b, c, d])) 4) := by
  have h := blocksAreMixedInOrder [(a, b, c, d)] [] seed (by simp)
  rw [scramble_pack_nil, xor32_zero] at h
  exact h

/-- Settles O16: the identities, and with them the digests by fmix, scramble and mix run on their words. -/
theorem hashIdentities : Obligations.HashIdentities := by
  refine ⟨hashOf_nil, ?_, hashOf_singleton, hashOf_one_block, ?_, ?_⟩
  · rw [hashOf_nil]; decide
  · rw [hashOf_singleton]; decide
  · rw [hashOf_one_block]; decide

/-! ## The command HASH -/

theorem State.respond_withEngine_eq (st : Status) (r : Word) (q : BitVec 64) (e : HashEngine) (s : State) :
    (s.respond st r q).withEngine e = { s with he := e, responses := s.responses ++ [responseWord st r q] } := by
  cases s; rfl

/-- Settles O18: HASH runs a pass, whose digest is Hash's, and its header is the concatenation of its fields. -/
theorem hashAnswersTheDigest : Obligations.HashAnswersTheDigest := by
  intro seed bytes s
  refine ⟨?_, rfl, hashOf_nil seed, hashPass seed bytes, ?_⟩
  · rw [encode, Laws.mkHeader_toNat, show (4 : BitVec 8).toNat = 4 from rfl, show (0 : BitVec 64).toNat = 0 from rfl,
      add_zero]
  · rw [exec_hash, execHash_eq, hashPass_h, State.respond_withEngine_eq]

end Sys2Proof.Machine
end

section
/-! PROOFS. The filter store (41_filter_store.md): what CONSTRUCT, INSERT and QUERY answer and leave, and that a
constructed filter never forgets an item. -/

namespace Sys2Proof.Machine

/-- An error's response is all it leaves (R13, R217; log 9 for the working registers). -/
theorem raise_eq (e : Status) (s : State) :
    s.raise e = { s with responses := s.responses ++ [responseWord e 0 0] } := rfl

/-! ## CONSTRUCT -/

/-- R191's nested ceiling, as CONSTRUCT's rule writes it. -/
theorem chunkCount_eq_ceilDiv_ceilDiv (m : BitVec 64) : chunkCount m = (m.toNat ⌈/⌉ 8) ⌈/⌉ 32768 := by
  rw [chunkCount, Nat.ceilDiv_eq_add_pred_div, Nat.ceilDiv_eq_add_pred_div]
  omega

/-- Settles O29: the three errors are raises, and the filter's BitStore is BS_ALLOC's. -/
theorem constructBuildsTheFilter : Obligations.ConstructBuildsTheFilter := by
  intro k m s
  obtain ⟨-, hAlready, hInvalid, hAlloc, -⟩ := responseWord_of_error
  refine ⟨Laws.mkHeader_toNat 1 k m, rfl, ?_⟩
  rw [← chunkCount_eq_ceilDiv_ceilDiv, exec_construct, execConstruct]
  split_ifs with hc hp hx
  · rw [raise_eq, hAlready]
  · rw [raise_eq, hInvalid]
  · rw [raise_eq, hAlloc]
  · exact ⟨bsAlloc (chunkCount m) s.bitStore, rfl, bsAlloc_maxChunks _ _,
      fun g hg => by rw [bsAlloc_byteAt, if_pos hg], fun g hg => by rw [bsAlloc_byteAt, if_neg (by omega)]⟩

/-! ## INSERT -/

/-- Settles O32: the loop writes the engine, SEED and the BitStore, to which it adds the probed bits. -/
theorem insertSetsTheProbedBits : Obligations.InsertSetsTheProbedBits := by
  intro item s
  obtain ⟨-, -, -, -, hNot⟩ := responseWord_of_error
  refine ⟨rfl, fun hc => ?_, fun ⟨hc, hm, hfit⟩ hw => ?_⟩
  · rw [exec_of_not_constructed hc item 0 _ (by simp), raise_eq, hNot]
  obtain ⟨u, hu⟩ := insertLoop_completes item s.k.toNat 0 hm hfit
  have hadds := insertLoop_addsBits hw hu
  obtain ⟨hframe, -⟩ := insertLoop_spec hu
  refine ⟨u.he, u.seed, u.bitStore, ?_, hadds.canonical, hadds.maxChunks, hadds.bits, fun g => hadds.byteAt_eq⟩
  rw [exec_insert, execInsert_of_constructed hc, hu]
  exact congrArg (fun v : State => Host.Outcome.next (v.respond .ok 0 0)) hframe

/-- Bits that are 1 already are added without effect. -/
theorem BitStore.AddsBits.of_subset {b : BitStore} {p : Nat → Prop} (hb : b.wf = true)
    (hp : ∀ i, p i → b.bitAt i = true) : b.AddsBits b p :=
  ⟨hb, rfl, rfl, rfl, fun i => (or_iff_left_of_imp (hp i)).symm⟩

/-- Settles O36: the second INSERT adds the bits the first one set. -/
theorem insertIsIdempotent : Obligations.InsertIsIdempotent := by
  intro item s hs hw
  obtain ⟨t, hexec, ht, ⟨hm, hk, -, -⟩, hadds⟩ := exec_insert_addsBits hs hw item
  obtain ⟨u, hexec', -, -, hadds'⟩ := exec_insert_addsBits ht hadds.canonical item
  rw [hm, hk] at hadds'
  have hset (i) (hi : Probed item s.k s.m i) : t.bitStore.bitAt i = true := (hadds.bits i).2 (.inr hi)
  exact ⟨t, u, hexec, hexec', hadds'.unique (.of_subset hadds.canonical hset) fun _ => Iff.rfl⟩

/-! ## QUERY -/

/-- Every bit the item's K probes select is 1: the filter answers that it holds the item (R147). -/
def State.HoldsItem (s : State) (item : List Byte) : Prop :=
  ∀ i, Probed item s.k s.m i → s.bitStore.bitAt i = true

section

variable (s : State) (item : List Byte)

@[simp] theorem State.holdsItem_respond (st : Status) (r : Word) (q : BitVec 64) :
    (s.respond st r q).HoldsItem item ↔ s.HoldsItem item := by simp [HoldsItem]

@[simp] theorem State.holdsItem_raise (e : Status) : (s.raise e).HoldsItem item ↔ s.HoldsItem item := by
  simp [HoldsItem]

@[simp] theorem State.holdsItem_withPort (rest : List HostEvent) :
    (s.withPort rest).HoldsItem item ↔ s.HoldsItem item := by simp [HoldsItem]

end

/-- QUERY's loop leaves HIT up exactly when the filter holds the item. -/
theorem queryLoop_hit_iff {item : List Byte} {s u : State}
    (h : queryLoop item s.k.toNat 0 (s.withHit true) = some u) : u.hit = true ↔ s.HoldsItem item := by
  obtain ⟨-, -, hhit⟩ := queryLoop_spec h
  rw [hhit (s.withHit_hit true), State.HoldsItem]
  simp only [probed_iff_passIndex, State.withHit_bitStore, State.withHit_m]
  exact ⟨fun hall i ⟨j, hj, hi⟩ => hi ▸ hall j hj, fun hall j hj => hall _ ⟨j, hj, rfl⟩⟩

/-- Settles O33: the loop writes the engine, SEED and HIT only, and the response carries HIT. -/
theorem queryAnswersAllProbedBits : Obligations.QueryAnswersAllProbedBits := by
  intro item s
  obtain ⟨-, -, -, -, hNot⟩ := responseWord_of_error
  refine ⟨rfl, fun hc => ?_, fun ⟨hc, hm, hfit⟩ => ?_⟩
  · rw [exec_of_not_constructed hc item 0 _ (by simp), raise_eq, hNot]
  obtain ⟨u, hu⟩ := queryLoop_completes item s.k.toNat 0 (s := s.withHit true) (by simpa using hm)
    (by simpa using hfit)
  obtain ⟨hframe, -⟩ := queryLoop_spec hu
  refine ⟨u.he, u.seed, u.hit, ?_, queryLoop_hit_iff hu⟩
  rw [exec_query, execQuery_of_constructed hc, hu]
  exact congrArg (fun v : State => Host.Outcome.next (v.respond .ok (bitResult u.hit) 0)) hframe

/-- Settles O34: QUERY writes the working registers and the responses only. -/
theorem queryIsReadOnly : Obligations.QueryIsReadOnly := by
  intro item s t h
  refine ⟨?_, (exec_answers h).port⟩
  rcases execQuery_cases h with ⟨-, rfl⟩ | ⟨-, u, hu, rfl⟩
  · simp [State.SameArchitecture]
  · simpa [State.SameArchitecture, State.SameShape, queryLoop_bitStore hu] using queryLoop_sameShape hu

/-- The answer to a QUERY is one bit: whether the filter holds the item. -/
theorem exec_query_response {s : State} (hs : s.Usable) (item : List Byte) :
    ∃ u hit, exec (.query item) s = .next u ∧ u.responses = s.responses ++ [responseWord .ok (bitResult hit) 0] ∧
      (hit = true ↔ s.HoldsItem item) := by
  obtain ⟨-, -, husable⟩ := queryAnswersAllProbedBits item s
  obtain ⟨e, sd, hit, hexec, hhit⟩ := husable hs
  exact ⟨_, hit, hexec, rfl, hhit⟩

/-- QUERY answers 1 exactly when the filter holds the item. -/
theorem exec_query_answers_one_iff {s : State} (hs : s.Usable) (item : List Byte) :
    (∃ u, exec (.query item) s = .next u ∧ u.responses = s.responses ++ [responseWord .ok 1 0]) ↔
      s.HoldsItem item := by
  obtain ⟨u, hit, hexec, hresp, hhit⟩ := exec_query_response hs item
  rw [← hhit]
  constructor
  · rintro ⟨v, hv, hone⟩
    rw [hexec] at hv
    cases hv
    rw [hresp, List.append_cancel_left_eq, List.singleton_inj] at hone
    cases hit with
    | true => rfl
    | false => simpa [bitResult] using congrArg responseR32 hone
  · rintro rfl
    exact ⟨u, hexec, hresp⟩

/-- A filter just built holds no item: the probe with seed 0 selects a bit of an allocated chunk. -/
theorem not_holdsItem_construct {k : Word} {m : BitVec 64} (hm : m ≠ 0) (hk : k ≠ 0) (s : State) (item : List Byte) :
    ¬ (s.construct k m).HoldsItem item := by
  intro hall
  have hpos : 0 < k.toNat := Nat.pos_of_ne_zero (BitVec.toNat_ne.1 hk)
  have hlt : probeIndex item (BitVec.ofNat 32 0) m < m.toNat := bitIndex_lt hm _
  have hle := le_chunkCount m
  have hone := hall _ ⟨0, by rwa [State.construct_k], by rw [State.construct_m]⟩
  rw [State.construct_bitStore, bsAlloc_bitAt _ (by omega)] at hone
  cases hone

/-- Settles O35: the filter just built is usable and holds no item. -/
theorem freshFilterAnswersZero : Obligations.FreshFilterAnswersZero := by
  intro k m s item hc hm hk hfit
  have hused : ((s.construct k m).respond .ok 0 (BitVec.ofNat 64 (chunkCount m))).Usable :=
    ⟨by simp, by simpa using hm, by simpa using hfit⟩
  obtain ⟨u, hit, hquery, hresp, hhit⟩ := exec_query_response hused item
  have hmiss : hit = false := by
    rw [← Bool.not_eq_true, hhit, State.holdsItem_respond]
    exact not_holdsItem_construct hm hk s item
  subst hmiss
  exact ⟨_, u, exec_construct_of_fits hc hm hk hfit, hquery, hresp⟩

/-! ## What a constructed filter keeps -/

/-- On a constructed block INSERT alone reaches the BitStore's writes: CONSTRUCT is refused (R154). -/
theorem exec_bitStore_of_constructed {i : Instr} {s t : State} (hc : s.constructed = true)
    (hinsert : ∀ item, i ≠ .insert item) (h : exec i s = .next t) : t.bitStore = s.bitStore := by
  cases i with
  | construct k m =>
    rcases execConstruct_cases h with ⟨-, rfl⟩ | ⟨hf, -⟩ | ⟨hf, -⟩ | ⟨hf, -⟩
    · simp
    all_goals simp [hc] at hf
  | insert item => exact absurd rfl (hinsert item)
  | query | hash | coord => exact exec_bitStore (by simp) (by simp) h

/-- Settles O40: INSERT alone writes the BitStore, and it only adds bits. -/
theorem setBitsStaySet : Obligations.SetBitsStaySet := by
  intro i s t hc hw h
  refine ⟨fun hinsert => exec_bitStore_of_constructed hc hinsert h, fun n hn => ?_⟩
  cases i with
  | insert item =>
    rcases execInsert_cases h with ⟨hf, -⟩ | ⟨-, u, hu, rfl⟩
    · simp [hc] at hf
    · rw [State.respond_bitStore, (insertLoop_addsBits hw hu).bits]
      exact .inl hn
  | construct | query | hash | coord => rwa [exec_bitStore_of_constructed hc (by simp) h]

/-- The block's filter is constructed and holds the item: what no command undoes. -/
structure State.Remembers (s : State) (item : List Byte) : Prop where
  inv : s.Inv
  constructed : s.constructed = true
  holds : s.HoldsItem item

section

variable {item : List Byte} {s t : State}

/-- The answer to a QUERY of a remembered item. -/
theorem State.Remembers.exec_query (hs : s.Remembers item) :
    ∃ u, exec (.query item) s = .next u ∧ u.responses = s.responses ++ [responseWord .ok 1 0] :=
  (exec_query_answers_one_iff (hs.inv.usable hs.constructed) item).2 hs.holds

theorem State.Remembers.withPort (hs : s.Remembers item) (rest : List HostEvent) :
    (s.withPort rest).Remembers item :=
  ⟨hs.inv.withPort rest, by simpa using hs.constructed, by simpa using hs.holds⟩

theorem State.Remembers.raise (hs : s.Remembers item) (e : Status) : (s.raise e).Remembers item :=
  ⟨hs.inv.raise e, by simpa using hs.constructed, by simpa using hs.holds⟩

/-- INSERT makes the block remember its item. -/
theorem remembers_of_exec_insert (hs : s.Inv) (hc : s.constructed = true)
    (h : exec (.insert item) s = .next t) : t.Remembers item := by
  obtain ⟨u, hexec, ⟨hcu, -⟩, ⟨hm, hk, -, -⟩, hadds⟩ := exec_insert_addsBits (hs.usable hc) hs.canonical item
  cases h.symm.trans hexec
  refine ⟨exec_keeps_inv hs h, hcu, fun i hi => ?_⟩
  rw [hm, hk] at hi
  exact (hadds.bits i).2 (.inr hi)

/-- No command makes the block forget: the probed bits are the same and stay 1. -/
theorem State.Remembers.of_exec (hs : s.Remembers item) {i : Instr} (h : exec i s = .next t) :
    t.Remembers item := by
  obtain ⟨hm, hk, -, hc⟩ := exec_sameShape hs.constructed h
  obtain ⟨-, hmono⟩ := setBitsStaySet i s t hs.constructed hs.inv.canonical h
  refine ⟨exec_keeps_inv hs.inv h, hc.trans hs.constructed, fun n hn => ?_⟩
  rw [hm, hk] at hn
  exact hmono n (hs.holds n hn)

theorem State.Remembers.runCommands (cmds : List Instr) (hs : s.Remembers item) :
    ∃ t, runCommands cmds s = .next t ∧ t.Remembers item := by
  induction cmds generalizing s with
  | nil => exact ⟨s, rfl, hs⟩
  | cons i rest ih =>
    obtain ⟨u, hu⟩ := exec_completes hs.inv i
    obtain ⟨t, hrun, ht⟩ := ih (hs.of_exec hu)
    exact ⟨t, by rw [Machine.runCommands, hu]; exact hrun, ht⟩

/-- A transaction, legal or not, does not make the block forget. -/
theorem State.Remembers.step_command (hs : s.Remembers item) {c : Command} {rest : List HostEvent}
    (hp : s.port = .command c :: rest) : ∃ t, step s = .next t ∧ t.Remembers item ∧ t.port = rest := by
  obtain ⟨t, ht⟩ := step_completes_of_command hs.inv hp
  refine ⟨t, ht, ?_, by simpa using (step_answers hp ht).port⟩
  cases hd : decode c with
  | instr i =>
    rw [step_of_decode_instr hp hd] at ht
    exact (hs.withPort rest).of_exec ht
  | illegal why =>
    rw [step_of_decode_illegal hp hd] at ht
    cases ht
    exact (hs.withPort rest).raise _

/-- A run with no reset among its events: it takes transactions, and idles when the port is empty. -/
theorem State.Remembers.run (n : Nat) (hs : s.Remembers item)
    (hport : ∀ e ∈ s.port.take n, e.isCommand = true) :
    ∃ t, Sys2Proof.core.run n s = .next t ∧ t.Remembers item := by
  induction n generalizing s with
  | zero => exact ⟨s, rfl, hs⟩
  | succ n ih =>
    match hp : s.port with
    | [] =>
      rw [run_succ n (step_of_idle hp)]
      exact ih hs (by simp [hp])
    | .reset f :: rest => simp [hp, HostEvent.isCommand] at hport
    | .command c :: rest =>
      obtain ⟨u, hstep, hu, hpu⟩ := hs.step_command hp
      rw [run_succ n hstep]
      rw [hp, List.take_succ_cons, List.forall_mem_cons] at hport
      exact ih hu (hpu ▸ hport.2)

end

/-- Settles O37: INSERT makes the block remember its item, and no transaction makes it forget. -/
theorem noFalseNegatives : Obligations.NoFalseNegatives := by
  intro s item rest n hs hc hp hcommands
  have hs' := hs.withPort rest
  have hc' : (s.withPort rest).constructed = true := by simpa using hc
  obtain ⟨u, hexec, -⟩ := exec_insert_addsBits (hs'.usable hc') hs'.canonical item
  have hport : u.port = rest := by simpa using (exec_answers hexec).port
  obtain ⟨t, hrun, ht⟩ := (remembers_of_exec_insert hs' hc' hexec).run n (hport ▸ hcommands)
  obtain ⟨v, hquery, hresp⟩ := ht.exec_query
  exact ⟨t, v, by rw [run_succ n ((step_of_encode hp).trans hexec), hrun], hquery, hresp⟩

/-- Settles O38: an item that queries true is remembered. -/
theorem trueAnswersPersist : Obligations.TrueAnswersPersist := by
  intro s item cmds hs hc hone
  have hremembers : s.Remembers item := ⟨hs, hc, (exec_query_answers_one_iff (hs.usable hc) item).1 hone⟩
  obtain ⟨t, hrun, ht⟩ := hremembers.runCommands cmds
  obtain ⟨u, hquery, hresp⟩ := ht.exec_query
  exact ⟨t, u, hrun, hquery, hresp⟩

/-! ## Commands that cannot fail -/

/-- Settles O42: INSERT and QUERY answer OK on a usable block, COORD on a constructed one, HASH always. -/
theorem commandsThatCannotFail : Obligations.CommandsThatCannotFail := by
  refine ⟨fun s item digest hs hc => ?_, fun s seed bytes => ?_⟩
  · have hused := hs.usable hc
    refine List.forall_mem_cons.2 ⟨?_, List.forall_mem_cons.2 ⟨?_, List.forall_mem_singleton.2 ?_⟩⟩
    · obtain ⟨-, -, hcompletes⟩ := insertSetsTheProbedBits item s
      obtain ⟨_, _, _, hinsert, -⟩ := hcompletes hused hs.canonical
      exact ⟨_, _, hinsert, rfl, responseStatus_responseWord ..⟩
    · obtain ⟨u, hit, hquery, hresp, -⟩ := exec_query_response hused item
      exact ⟨u, _, hquery, hresp, responseStatus_responseWord ..⟩
    · have hcoord : exec (.coord digest) s = .next (s.respond .ok 0 (bitIndex digest s.m)) := if_pos hc
      exact ⟨_, _, hcoord, s.respond_responses .., responseStatus_responseWord ..⟩
  · obtain ⟨-, -, -, _, hhash⟩ := hashAnswersTheDigest seed bytes s
    exact ⟨_, _, hhash, rfl, responseStatus_responseWord ..⟩

end Sys2Proof.Machine
end

section
/-! PROOFS. The sizing law of the host's `Size` (41_filter_store.md R140 to R142), over the exact reals. -/

namespace Sys2Proof.Machine

section

variable {n : ℤ} {p : ℝ} {m k : ℤ}

/-- The argument of R140's ceiling: `ln p` is negative. -/
theorem bitArraySize_arg_pos (hn : 0 < n) (hp : 0 < p) (hp1 : p < 1) :
    0 < -(n : ℝ) * Real.log p / Real.log 2 ^ 2 := by
  have hn' : (0 : ℝ) < n := by exact_mod_cast hn
  have hlog2 : 0 < Real.log 2 := Real.log_pos (by norm_num)
  exact div_pos (mul_pos_of_neg_of_neg (neg_lt_zero.2 hn') (Real.log_neg hp hp1)) (by positivity)

theorem IsBitArraySize.one_le (h : IsBitArraySize n p m) (hn : 0 < n) (hp : 0 < p) (hp1 : p < 1) : 1 ≤ m := by
  rw [h, Int.one_le_ceil_iff]
  exact bitArraySize_arg_pos hn hp hp1

/-- R141's floor is taken of a number not below 1/2. -/
theorem IsProbeCount.nonneg (h : IsProbeCount n m k) (hn : 0 < n) (hm : 1 ≤ m) : 0 ≤ k := by
  have hn' : (0 : ℝ) < n := by exact_mod_cast hn
  have hm' : (0 : ℝ) < m := by exact_mod_cast hm
  have hlog2 : 0 < Real.log 2 := Real.log_pos (by norm_num)
  rw [h, Int.floor_nonneg]
  positivity

/-- R142's two outcomes for valid `n` and `p`, told apart by the one `k` of the one `m`. -/
theorem isSize_some_iff {m' k' : ℤ} (hn : 0 < n) (hp : 0 < p) (hp1 : p < 1) (hm : IsBitArraySize n p m)
    (hk : IsProbeCount n m k) : IsSize n p (some (m', k')) ↔ 0 < k ∧ m' = m ∧ k' = k := by
  constructor
  · rintro ⟨-, -, -, hm', hk', -, hpos⟩
    obtain rfl : m' = m := hm'.trans hm.symm
    obtain rfl : k' = k := hk'.trans hk.symm
    exact ⟨hpos, rfl, rfl⟩
  · rintro ⟨hpos, rfl, rfl⟩
    exact ⟨hn, hp, hp1, hm, hk, hm.one_le hn hp hp1, hpos⟩

theorem isSize_none_iff (hn : 0 < n) (hp : 0 < p) (hp1 : p < 1) (hm : IsBitArraySize n p m)
    (hk : IsProbeCount n m k) : IsSize n p none ↔ k = 0 := by
  have hm1 := hm.one_le hn hp hp1
  have hk0 := hk.nonneg hn hm1
  constructor
  · rintro (h | h | h | ⟨m', k', hm', hk', h⟩)
    · omega
    · exact absurd hp h.not_gt
    · exact absurd hp1 h.not_gt
    · obtain rfl : m' = m := hm'.trans hm.symm
      obtain rfl : k' = k := hk'.trans hk.symm
      omega
  · rintro rfl
    exact .inr (.inr (.inr ⟨m, 0, hm, hk, .inr le_rfl⟩))

end

/-- Settles O52: a ceiling is one number, and that of a positive number is at least 1. -/
theorem sizedBitArrayIsPositive : Obligations.SizedBitArrayIsPositive := fun _ _ hn hp hp1 =>
  ⟨⟨_, rfl, fun _ h => h⟩, fun _ h => h.one_le hn hp hp1⟩

/-- `Size` raises on an `n` or `p` that is not valid, and gives no size (R142). -/
theorem isSize_iff_of_not_valid {n : ℤ} {p : ℝ} (h : ¬ (0 < n ∧ 0 < p ∧ p < 1)) (r : Option (ℤ × ℤ)) :
    IsSize n p r ↔ r = none := by
  cases r with
  | none =>
    refine iff_of_true ?_ rfl
    by_cases hn : n ≤ 0
    · exact .inl hn
    by_cases hp : p ≤ 0
    · exact .inr (.inl hp)
    · exact .inr (.inr (.inl (not_lt.1 fun hp1 => h ⟨not_le.1 hn, not_le.1 hp, hp1⟩)))
  | some size => exact iff_of_false (fun ⟨hn, hp, hp1, _⟩ => h ⟨hn, hp, hp1⟩) nofun

/-- Settles O53: for valid `n` and `p` the outcome is decided by whether the derived `k`, never negative, is 0. -/
theorem sizeRaisesOnlyForZeroProbes : Obligations.SizeRaisesOnlyForZeroProbes := by
  intro n p
  obtain ⟨m, hm⟩ : ∃ m, IsBitArraySize n p m := ⟨_, rfl⟩
  obtain ⟨k, hk⟩ : ∃ k, IsProbeCount n m k := ⟨_, rfl⟩
  refine ⟨?_, fun hn hp hp1 hnone => ⟨m, hm, (isSize_none_iff hn hp hp1 hm hk).1 hnone ▸ hk⟩⟩
  by_cases hvalid : 0 < n ∧ 0 < p ∧ p < 1
  · obtain ⟨hn, hp, hp1⟩ := hvalid
    have hsome (m' k') := isSize_some_iff (m' := m') (k' := k') hn hp hp1 hm hk
    have hnone := isSize_none_iff hn hp hp1 hm hk
    have hk0 := hk.nonneg hn (hm.one_le hn hp hp1)
    rcases hk0.lt_or_eq with hpos | hzero
    · refine ⟨some (m, k), (hsome m k).2 ⟨hpos, rfl, rfl⟩, fun r hr => ?_⟩
      match r with
      | none => exact absurd (hnone.1 hr) hpos.ne'
      | some (m', k') =>
        obtain ⟨-, rfl, rfl⟩ := (hsome m' k').1 hr
        rfl
    · refine ⟨none, hnone.2 hzero.symm, fun r hr => ?_⟩
      match r with
      | none => rfl
      | some (m', k') => exact absurd hzero ((hsome m' k').1 hr).1.ne
  · exact ⟨none, (isSize_iff_of_not_valid hvalid none).2 rfl, fun r => (isSize_iff_of_not_valid hvalid r).1⟩

end Sys2Proof.Machine
end

section
/-! PROOFS. Bit addressing (42_bit_addressing.md R171 to R178): the triple as slices, the scaling map's range, corners
and shape, the command COORD, and that no step faults. -/

namespace Sys2Proof.Machine

/-! ## The triple of a bit index -/

theorem tripleOf_chunk (bi : Nat) : (tripleOf bi).chunk = bi / 262144 := by
  simp only [tripleOf]; omega

theorem tripleOf_byteInChunk (bi : Nat) : (tripleOf bi).byteInChunk = bi / 8 % 32768 := by
  simp only [tripleOf]; omega

/-- R173's inverse. -/
theorem eq_of_tripleOf (bi : Nat) :
    bi = (tripleOf bi).chunk * 262144 + (tripleOf bi).byteInChunk * 8 + (tripleOf bi).bitInByte := by
  rw [tripleOf_chunk, tripleOf_byteInChunk, tripleOf_bitInByte]; omega

/-- Settles O22: a slice is a quotient's remainder, as each part is; the inverse makes the map one-to-one. -/
theorem triplesAreSlices : Obligations.TriplesAreSlices := by
  refine ⟨fun bi => ⟨?_, ?_, ?_⟩, fun bi => ⟨eq_of_tripleOf bi, ?_, ?_, tripleOf_globalByte bi⟩, fun bi bj h => ?_⟩
  · rw [tripleOf_chunk, BitVec.extractLsb'_toNat, Nat.shiftRight_eq_div_pow]; omega
  · rw [tripleOf_byteInChunk, BitVec.extractLsb'_toNat, Nat.shiftRight_eq_div_pow]
  · rw [tripleOf_bitInByte, BitVec.extractLsb'_toNat, Nat.shiftRight_zero]
  · rw [tripleOf_bitInByte]; omega
  · rw [tripleOf_byteInChunk]; omega
  · rw [eq_of_tripleOf bi, eq_of_tripleOf bj, h]

/-! ## The range -/

/-- Settles O19: a scaled index lies below `M`, which its chunks hold. -/
theorem coordinatesAreInRange : Obligations.CoordinatesAreInRange := by
  intro digest m hm
  have hlt := bitIndex_lt hm digest
  have hfit := le_chunkCount m
  rw [coordinate, tripleOf_chunk, tripleOf_globalByte]
  omega

/-! ## The scaling map -/

section

variable {m : BitVec 64}

theorem bitIndex_mono {d e : Word} (h : d.toNat ≤ e.toNat) : (bitIndex d m).toNat ≤ (bitIndex e m).toNat := by
  rw [bitIndex_toNat, bitIndex_toNat]
  exact Nat.div_le_div_right (Nat.mul_le_mul_right _ h)

/-- From `2^32` on, the products of two digests lie at least `2^32` apart. -/
theorem bitIndex_strictMono (hm : 2 ^ 32 ≤ m.toNat) {d e : Word} (h : d.toNat < e.toNat) :
    (bitIndex d m).toNat < (bitIndex e m).toNat := by
  have hstep : d.toNat * m.toNat + 2 ^ 32 ≤ e.toNat * m.toNat :=
    calc d.toNat * m.toNat + 2 ^ 32 ≤ d.toNat * m.toNat + m.toNat := Nat.add_le_add_left hm _
      _ = (d.toNat + 1) * m.toNat := (Nat.succ_mul ..).symm
      _ ≤ e.toNat * m.toNat := Nat.mul_le_mul_right _ h
  rw [bitIndex_toNat, bitIndex_toNat]
  omega

theorem bitIndex_injective (hm : 2 ^ 32 ≤ m.toNat) {d e : Word} (h : bitIndex d m = bitIndex e m) : d = e := by
  by_contra hne
  rcases lt_or_gt_of_ne (BitVec.toNat_ne.1 hne) with hlt | hgt
  · exact (bitIndex_strictMono hm hlt).ne (congrArg BitVec.toNat h)
  · exact (bitIndex_strictMono hm hgt).ne' (congrArg BitVec.toNat h)

/-- Settles O20: `(2^32 - 1) * M / 2^32` on numbers, and the greatest digest has the greatest index. -/
theorem cornerDigests : Obligations.CornerDigests := by
  intro m
  have hzero : (bitIndex 0 m).toNat = 0 := by rw [bitIndex_toNat]; simp
  have htop : (bitIndex 0xffffffff m).toNat = (2 ^ 32 - 1) * m.toNat / 2 ^ 32 := bitIndex_toNat _ _
  refine ⟨by rw [coordinate, hzero]; rfl, fun hm => ?_⟩
  have hpos : 0 < m.toNat := Nat.zero_lt_of_lt (bitIndex_lt hm 0)
  refine ⟨by omega, fun _ => by omega, fun _ => by omega, fun digest => bitIndex_mono ?_⟩
  exact Nat.le_pred_of_lt digest.isLt

/-! ## The digests of one bit -/

/-- The digests that select bit `i` are an interval (R176). -/
theorem bitIndex_eq_iff (hm : 0 < m.toNat) (d : Word) (i : Nat) :
    (bitIndex d m).toNat = i ↔
      i * 2 ^ 32 ⌈/⌉ m.toNat ≤ d.toNat ∧ d.toNat < (i * 2 ^ 32 + 2 ^ 32) ⌈/⌉ m.toNat := by
  rw [bitIndex_toNat, ceilDiv_le_iff_le_mul hm, ← not_le, ceilDiv_le_iff_le_mul hm, mul_comm d.toNat]
  omega

theorem ncard_toNat_interval {w a b : Nat} (hb : b ≤ 2 ^ w) :
    {d : BitVec w | a ≤ d.toNat ∧ d.toNat < b}.ncard = b - a := by
  have himage : BitVec.toNat '' {d : BitVec w | a ≤ d.toNat ∧ d.toNat < b} = ↑(Finset.Ico a b) := by
    ext n
    simp only [Set.mem_image, Set.mem_ofPred_eq, Finset.coe_Ico, Set.mem_Ico]
    constructor
    · rintro ⟨d, hd, rfl⟩
      exact hd
    · intro hn
      have hmod : (BitVec.ofNat w n).toNat = n := (BitVec.toNat_ofNat ..).trans (Nat.mod_eq_of_lt (hn.2.trans_le hb))
      exact ⟨BitVec.ofNat w n, by rwa [hmod], hmod⟩
  rw [← Set.ncard_image_of_injective _ fun _ _ => BitVec.eq_of_toNat_eq, himage, Set.ncard_coe_finset, Nat.card_Ico]

/-- An interval `[x / m, x / m + n / m)` of rationals holds `floor(n / m)` or `ceil(n / m)` naturals. -/
theorem add_ceilDiv_sub_ceilDiv (x n : Nat) {m : Nat} (hm : 0 < m) :
    (x + n) ⌈/⌉ m - x ⌈/⌉ m = n / m ∨ (x + n) ⌈/⌉ m - x ⌈/⌉ m = n ⌈/⌉ m := by
  have hlow : x ⌈/⌉ m + n / m ≤ (x + n) ⌈/⌉ m := by
    have h : (x + m - 1) / m + n / m ≤ (x + m - 1 + n) / m := Nat.div_add_div_le_add_div
    rwa [show x + m - 1 + n = x + n + m - 1 by omega] at h
  have hhigh : (x + n) ⌈/⌉ m ≤ x ⌈/⌉ m + n ⌈/⌉ m := by
    rw [ceilDiv_le_iff_le_mul hm, mul_add]
    exact Nat.add_le_add (le_smul_ceilDiv hm) (le_smul_ceilDiv hm)
  have hgap : n ⌈/⌉ m ≤ n / m + 1 := by
    rw [← Nat.add_div_right n hm]
    exact Nat.div_le_div_right (Nat.sub_le ..)
  omega

/-- R176: up to `2^32` every bit below `M` has its share of the digests. -/
theorem ncard_bitIndex (hm : 0 < m.toNat) {i : Nat} (hi : i < m.toNat) :
    {d : Word | (bitIndex d m).toNat = i}.ncard = 2 ^ 32 / m.toNat ∨
      {d : Word | (bitIndex d m).toNat = i}.ncard = 2 ^ 32 ⌈/⌉ m.toNat := by
  have hend : (i * 2 ^ 32 + 2 ^ 32) ⌈/⌉ m.toNat ≤ 2 ^ 32 := by
    rw [ceilDiv_le_iff_le_mul hm]
    omega
  simp only [bitIndex_eq_iff hm, ncard_toNat_interval hend]
  exact add_ceilDiv_sub_ceilDiv _ _ hm

end

/-- Settles O21: onto, since the digests of a bit are at least `floor(2^32 / M)`, which is positive; not onto above
`2^32`, since no digest's index exceeds that of the greatest. -/
theorem shapeOfTheScalingMap : Obligations.ShapeOfTheScalingMap := by
  intro m hm
  have hpos : 0 < m.toNat := Nat.zero_lt_of_lt (bitIndex_lt hm 0)
  refine ⟨fun d e => bitIndex_mono, fun hle i hi => ?_, fun hgt => ⟨fun d e => bitIndex_injective hgt.le, ?_⟩,
    fun heq d => by rw [bitIndex_toNat, heq]; omega⟩
  · have hshare := ncard_bitIndex hpos hi
    have hfloor : 0 < 2 ^ 32 / m.toNat := Nat.div_pos hle hpos
    have hceil : 2 ^ 32 / m.toNat ≤ 2 ^ 32 ⌈/⌉ m.toNat :=
      Nat.floorDiv_eq_div .. ▸ floorDiv_le_ceilDiv
    have honto : {d : Word | (bitIndex d m).toNat = i}.Nonempty := Set.nonempty_of_ncard_ne_zero (by omega)
    rw [Nat.ceilDiv_eq_add_pred_div, Nat.add_sub_assoc hpos] at hshare
    exact ⟨honto, hshare⟩
  · obtain ⟨-, hcorner⟩ := cornerDigests m
    obtain ⟨-, -, hbelow, hgreatest⟩ := hcorner hm
    exact ⟨m.toNat - 1, by omega, fun d => ((hgreatest d).trans_lt (hbelow hgt)).ne⟩

/-! ## The command COORD -/

/-- Settles O23: the header is the concatenation of its fields, and the scaled index fits R64. -/
theorem coordAnswersTheBitIndex : Obligations.CoordAnswersTheBitIndex := by
  intro digest s
  obtain ⟨-, -, -, -, hNot⟩ := responseWord_of_error
  refine ⟨?_, rfl, ?_⟩
  · rw [encode, Laws.mkHeader_toNat, show (5 : BitVec 8).toNat = 5 from rfl, show (0 : BitVec 64).toNat = 0 from rfl,
      add_zero]
  · rw [exec_coord, execCoord, ← bitIndex_toNat, BitVec.ofNat_toNat, BitVec.setWidth_eq]
    split_ifs
    · rfl
    · rw [raise_eq, hNot]

/-! ## No step faults -/

/-- Settles O43: an idle step and a reset touch no byte of the BitStore, and every command completes. -/
theorem noStepFaults : Obligations.NoStepFaults := by
  intro s hs
  cases hp : s.port with
  | nil => exact ⟨s, step_of_idle hp⟩
  | cons event rest =>
    cases event with
    | reset caught => exact ⟨_, step_of_reset hp⟩
    | command c => exact step_completes_of_command hs hp

end Sys2Proof.Machine
end

section
/-! PROOFS. The BitStore controller (43_bitstore_controller.md R191 to R198): the chunk count, what the
micro-operations BS_ALLOC, BS_SET and BS_TEST do to bytes and bits, and when an allocation fails. -/

namespace Sys2Proof.Machine

/-! ## The chunk count -/

theorem one_le_chunkCount {m : BitVec 64} (hm : m ≠ 0) : 1 ≤ chunkCount m := by
  have hne : m.toNat ≠ 0 := BitVec.toNat_ne.1 hm
  unfold chunkCount
  omega

/-- The capacity log 3 names is enough for every `m` (R11, R191). -/
theorem chunkCount_le (m : BitVec 64) : chunkCount m ≤ Config.resetMaxChunks := by
  have hlt := m.isLt
  unfold chunkCount Config.resetMaxChunks
  omega

/-- Settles O24: floor division of a padded sum is the ceiling, and a 64-bit `m` bounds it. -/
theorem chunkCountIsTheCeiling : Obligations.ChunkCountIsTheCeiling := by
  refine ⟨fun m => ⟨chunkCount_eq_ceilDiv_ceilDiv m, chunkCount_eq_ceilDiv m, one_le_chunkCount, fun hm hone => ?_,
    chunkCount_le m⟩, by decide⟩
  have hge := one_le_chunkCount hm
  unfold chunkCount at hge ⊢
  omega

/-! ## BS_ALLOC -/

/-- R192's loop over bytes that exist, after any number of its writes. -/
theorem writeZeros_spec {n : Nat} {b : BitStore} (hb : b.wf = true) (hn : n ≤ b.size) :
    ∃ d, writeZeros n b = some d ∧ d.wf = true ∧ d.size = b.size ∧
      ∀ g, d.byteAt g = if g < n then 0 else b.byteAt g := by
  induction n with
  | zero => exact ⟨b, rfl, hb, rfl, fun g => (if_neg g.not_lt_zero).symm⟩
  | succ n ih =>
    obtain ⟨d, hd, hwf, hsize, hbytes⟩ := ih (by omega)
    have hlt : n < d.size := by omega
    refine ⟨d.setByte n 0, ?_, BitStore.setByte_wf hwf hlt 0, (BitStore.setByte_size ..).trans hsize, fun g => ?_⟩
    · rw [writeZeros, hd, Option.bind_some, BitStore.memWrite, if_pos hlt]
    · rw [BitStore.byteAt_setByte hwf, hbytes]
      by_cases heq : g = n
      · rw [if_pos heq, if_pos (by omega)]
      · rw [if_neg heq]
        exact if_congr (by omega) rfl rfl

/-- Settles O26: the one operation and the loop leave the same bytes. -/
theorem allocationZeroFills : Obligations.AllocationZeroFills := by
  intro b nc hb hnc
  obtain ⟨d, hd, -, -, hbytes⟩ := writeZeros_spec hb (Nat.mul_le_mul_right 32768 hnc)
  exact ⟨fun g hg => by rw [bsAlloc_byteAt, if_pos hg], fun g hg => by rw [bsAlloc_byteAt, if_neg (by omega)],
    d, hd, fun g => by rw [hbytes, bsAlloc_byteAt]⟩

/-! ## BS_SET and BS_TEST -/

/-- A coordinate inside a chunk that exists names a byte that exists (R26, R51). -/
theorem Coordinate.globalByte_lt_size {b : BitStore} {c : Coordinate} (hc : c.chunk < b.maxChunks)
    (hy : c.byteInChunk < 32768) : c.globalByte < b.size := by
  unfold Coordinate.globalByte BitStore.size Config.chunkBytes
  omega

/-- Bit `j` of byte `g` is bit `g * 8 + j` of the BitStore (R55). -/
theorem byte_and_bit_of_index (g : Nat) {j : Nat} (hj : j < 8) : (g * 8 + j) / 8 = g ∧ (g * 8 + j) % 8 = j := by
  omega

/-- Settles O27: the write is the one INSERT's probe of bit `g * 8 + j` makes. -/
theorem setBitSetsOneBit : Obligations.SetBitSetsOneBit := by
  intro b c y j hb hc hy hj
  obtain ⟨hdiv, hmod⟩ := byte_and_bit_of_index (c * 32768 + y) hj
  refine ⟨_, bsSet_of_lt (Coordinate.globalByte_lt_size hc hy), ?_, fun g hg => ?_, fun i => ?_⟩
  · exact (BitStore.byteAt_setByte hb ..).trans (if_pos rfl)
  · exact (BitStore.byteAt_setByte hb ..).trans (if_neg hg)
  · have hbit := bitAt_after_probe hb ((c * 32768 + y) * 8 + j) i
    rwa [hdiv, hmod] at hbit

/-- Settles O28: the byte exists, so BS_TEST reads its bit, which is the BitStore's bit `g * 8 + j`. -/
theorem testBitReadsOneBit : Obligations.TestBitReadsOneBit := by
  intro b c y j hc hy hj
  obtain ⟨hdiv, hmod⟩ := byte_and_bit_of_index (c * 32768 + y) hj
  rw [BitStore.bitAt, hdiv, hmod]
  exact bsTest_of_lt (Coordinate.globalByte_lt_size hc hy)

/-! ## Allocation failure -/

theorem exec_construct_of_exceeds {k : Word} {m : BitVec 64} {s : State} (hc : s.constructed = false) (hm : m ≠ 0)
    (hk : k ≠ 0) (hexceeds : s.bitStore.maxChunks < chunkCount m) :
    exec (.construct k m) s = .next (s.raise .allocationFailure) := by
  rw [exec_construct, execConstruct, if_neg (by simp [hc]), if_neg (not_or.2 ⟨hm, hk⟩), if_pos hexceeds]

/-- CONSTRUCTED tells the failure from the success. -/
theorem exec_construct_eq_failure_iff {k : Word} {m : BitVec 64} {s : State} (hc : s.constructed = false)
    (hm : m ≠ 0) (hk : k ≠ 0) :
    exec (.construct k m) s = .next (s.raise .allocationFailure) ↔ s.bitStore.maxChunks < chunkCount m := by
  refine ⟨fun hfail => ?_, exec_construct_of_exceeds hc hm hk⟩
  by_contra hfit
  rw [exec_construct_of_fits hc hm hk (not_lt.1 hfit), Host.Outcome.next.injEq] at hfail
  have hbuilt := congrArg State.constructed hfail
  simp [hc] at hbuilt

/-- Settles O31: the failed state has the block's own BitStore and CONSTRUCTED = 0, so the next CONSTRUCT meets the
same capacity. -/
theorem allocationFailsExactlyOverCapacity : Obligations.AllocationFailsExactlyOverCapacity := by
  intro k m s hc hm hk
  obtain ⟨-, -, -, hAlloc, -⟩ := responseWord_of_error
  simp only [← chunkCount_eq_ceilDiv_ceilDiv, ← hAlloc, ← raise_eq]
  exact ⟨exec_construct_eq_failure_iff hc hm hk, fun m' hexceeds hm' hfit =>
    ⟨_, _, exec_construct_of_exceeds hc hm hk hexceeds, exec_construct_of_fits (by simpa) hm' hk (by simpa), by simp,
      by simp⟩⟩

end Sys2Proof.Machine
end

section
/-! PROOFS. Errors (60_exceptions.md R217): every command either raises an error or answers OK, and an error is
only ever raised. -/

namespace Sys2Proof.Machine

/-- `t` has answered one response more than `s`, with the status OK (R86). -/
def State.AnswersOk (s t : State) : Prop := ∃ r q, t.responses = s.responses ++ [responseWord .ok r q]

theorem State.answersOk_respond {s u : State} (hu : u.responses = s.responses) (r : Word) (q : BitVec 64) :
    s.AnswersOk (u.respond .ok r q) :=
  ⟨r, q, by rw [State.respond_responses, hu]⟩

theorem State.sameArchitecture_raise (s : State) (e : Status) : s.SameArchitecture (s.raise e) :=
  ⟨s.raise_m e, s.raise_k e, s.raise_nchunks e, s.raise_constructed e, s.raise_bitStore e⟩

theorem exec_raises_or_answersOk {i : Instr} {s t : State} (h : exec i s = .next t) :
    (∃ e, t = s.raise e) ∨ s.AnswersOk t := by
  cases i with
  | construct k m =>
    rcases execConstruct_cases h with ⟨-, herr⟩ | ⟨-, -, herr⟩ | ⟨-, -, -, herr⟩ | ⟨-, -, -, rfl⟩
    · exact .inl ⟨_, herr⟩
    · exact .inl ⟨_, herr⟩
    · exact .inl ⟨_, herr⟩
    · exact .inr (State.answersOk_respond (s.construct_responses k m) _ _)
  | insert item =>
    rcases execInsert_cases h with ⟨-, herr⟩ | ⟨-, u, hu, rfl⟩
    · exact .inl ⟨_, herr⟩
    · have hframe := (insertLoop_spec hu).1
      exact .inr (State.answersOk_respond (by rw [hframe]) _ _)
  | query item =>
    rcases execQuery_cases h with ⟨-, herr⟩ | ⟨-, u, hu, rfl⟩
    · exact .inl ⟨_, herr⟩
    · have hframe := (queryLoop_spec hu).1
      exact .inr (State.answersOk_respond (by rw [hframe, State.withHit_responses]) _ _)
  | hash seed bytes =>
    rw [exec_hash, execHash_eq, State.respond_withEngine] at h
    cases h
    exact .inr (State.answersOk_respond (s.withEngine_responses _) _ _)
  | coord digest =>
    rcases execCoord_cases h with ⟨-, herr⟩ | ⟨-, rfl⟩
    · exact .inl ⟨_, herr⟩
    · exact .inr (State.answersOk_respond rfl _ _)

theorem step_raises_or_answersOk {s t : State} {c : Command} {rest : List HostEvent}
    (hp : s.port = .command c :: rest) (h : step s = .next t) :
    (∃ e, t = (s.withPort rest).raise e) ∨ (s.withPort rest).AnswersOk t := by
  cases hd : decode c with
  | instr i =>
    rw [step_of_decode_instr hp hd] at h
    exact exec_raises_or_answersOk h
  | illegal why =>
    rw [step_of_decode_illegal hp hd] at h
    cases h
    exact .inl ⟨_, rfl⟩

/-- Settles O41: a raise changes nothing but the responses, and a command that does not raise answers OK. -/
theorem errorsLeaveNoTrace : Obligations.ErrorsLeaveNoTrace := by
  intro s t c rest w hp h hw herr
  rcases step_raises_or_answersOk hp h with ⟨e, rfl⟩ | ⟨r, q, hok⟩
  · have hresp : w = responseWord e 0 0 := by simpa using hw.symm
    exact ⟨(s.withPort rest).sameArchitecture_raise e, by rw [hresp, responseR32_responseWord],
      by rw [hresp, responseR64_responseWord]⟩
  · have hresp : w = responseWord .ok r q := by simpa [hw] using hok
    exact absurd (hresp ▸ responseStatus_responseWord ..) herr

end Sys2Proof.Machine
end
